-- ==== Sys2Proof/Word.lean ====
section
/-! DEFINITION. The words of the codec (00_scope.md R10): bytes, nibbles and 16-bit
fields. `Dur`, a duration in microseconds, is an unbounded natural number, written `Nat` throughout (D3; R137 "a model
over natural numbers needs no width at all"): DESIGN CHOICE, log 15. -/

namespace Sys2Proof

/-- `u8` of R10. -/
abbrev Byte := BitVec 8

/-- `u4` of R10: an on-wire code of a mode, fan or swing. -/
abbrev Nibble := BitVec 4

/-- `u16` of R10. -/
abbrev Half := BitVec 16

end Sys2Proof
end

