-- ==== Sys2Proof/Config.lean ====
section
/-! DEFINITION. What an implementation fixes: the closed enumerations of the `Command` fields, the open
parameters of R7 as plain data, and the one free value. The constants of R6 and the reference values of the
open parameters stand in Machine/Params.lean. -/

namespace Sys2Proof

/-- R31: `mode` in {Auto, Dry, Cool, Heat, Fan}; closed (R33). -/
inductive Mode where
  | auto | dry | cool | heat | fan
  deriving DecidableEq, Repr, Inhabited

/-- R31: `fan` in {Auto, 1..5}; closed (R33). -/
inductive Fan where
  | auto | one | two | three | four | five
  deriving DecidableEq, Repr, Inhabited

/-- R31: `swing` in {Auto, 1..5}; closed (R33). -/
inductive Swing where
  | auto | one | two | three | four | five
  deriving DecidableEq, Repr, Inhabited

/-- R32: the nine short commands, "and nothing else". -/
inductive ShortCommand where
  | eion | patrol | quiet | powerful | check | setAir1 | setAir2 | setAir3 | acReset
  deriving DecidableEq, Repr, Inhabited

/-- `MODE_CODE` of R93, as its five values. -/
structure ModeCodes where
  auto : Nibble
  dry : Nibble
  cool : Nibble
  heat : Nibble
  fan : Nibble
  deriving DecidableEq, Repr

/-- `FAN_CODE` of R94, as its six values. -/
structure FanCodes where
  auto : Nibble
  one : Nibble
  two : Nibble
  three : Nibble
  four : Nibble
  five : Nibble
  deriving DecidableEq, Repr

/-- `SWING_CODE` of R95, as its six values. -/
structure SwingCodes where
  auto : Nibble
  one : Nibble
  two : Nibble
  three : Nibble
  four : Nibble
  five : Nibble
  deriving DecidableEq, Repr

/-- The eight open values of `SHORT_CODE` (R96): `CODE_PATROL` .. `CODE_ACRESET`. `SHORT_CODE(EIon)` is fixed (R6). -/
structure ShortCodes where
  patrol : Half
  quiet : Half
  powerful : Half
  check : Half
  setAir1 : Half
  setAir2 : Half
  setAir3 : Half
  acReset : Half
  deriving DecidableEq, Repr

/-- The open parameters of R7 ("each is a named argument of the model") as plain data: the machine holds one such
value and no operation writes it (R67, R351). `DUR_W` is instantiated as unbounded (log 15); `RX_TIMEOUT` is the
host's and no rule depends on it (log 24); `TIMER_PACK`/`TIMER_UNPACK` stay at the default layout (log 18). -/
structure Config where
  /-- `MODE_CODE` (R93). -/
  modes : ModeCodes
  /-- `FAN_CODE` (R94). -/
  fans : FanCodes
  /-- `SWING_CODE` (R95). -/
  swings : SwingCodes
  /-- `SHORT_CODE` but for EIon (R96). -/
  shorts : ShortCodes
  /-- `HDR_REPEAT : u8[8]` (R97). -/
  hdrRepeat : Vector Byte 8
  /-- `TX_HDR_MARK` (R243). -/
  txHdrMark : Nat
  /-- `TX_HDR_SPACE` (R243). -/
  txHdrSpace : Nat
  /-- `TX_BIT_MARK` (R243). -/
  txBitMark : Nat
  /-- `TX_SPACE0` (R243). -/
  txSpace0 : Nat
  /-- `TX_SPACE1` (R243). -/
  txSpace1 : Nat
  /-- `TX_END_MARK` (R243, D21). -/
  txEndMark : Nat
  /-- `TX_CAPACITY` (R7, D24): the capacity TX_COMMAND hands to ENCODE; the spec's default is 19. -/
  txCapacity : Nat
  /-- `LITERAL_ERROR_ROWS` (R7, D5): the spec's default is false. -/
  literalErrorRows : Bool
  deriving DecidableEq, Repr

/-- The free value: byte `index` of the buffer that the `n`-th RESET operation leaves ("`buffer` is left with
unspecified contents", R350; U2 "any value"). Nothing constrains it. DESIGN CHOICE, log 6. -/
opaque Config.freeByte : (n index : Nat) → Byte

end Sys2Proof
end

