-- ==== Sys2Proof/Machine/Params.lean ====
section
/-! DEFINITION. The constants the source fixes (R6) and the reference instantiation of the open parameters (R7). -/

namespace Sys2Proof

/-- `CAPACITY` (R6): bytes of the assembler's buffer. -/
abbrev CAPACITY : Nat := 19
/-- `LEN_SHORT` (R6). -/
abbrev LEN_SHORT : Nat := 8
/-- `LEN_STATE` (R6). -/
abbrev LEN_STATE : Nat := 19
/-- `MARK_US` (R6). -/
abbrev MARK_US : Nat := 400
/-- `MARK_TOL` (R6). -/
abbrev MARK_TOL : Nat := 150
/-- `HDR_MARK_THR` (R6). -/
abbrev HDR_MARK_THR : Nat := 2700
/-- `HDR_SPACE_THR` (R6). -/
abbrev HDR_SPACE_THR : Nat := 1600

/-- `FRAME_HDR` (R6): bytes 0 to 3 of every frame. -/
def FRAME_HDR : List Byte := [0x02, 0x20, 0xE0, 0x04]

/-- `TIME_SENTINEL` (R6). -/
abbrev TIME_SENTINEL : Half := 0x600
/-- `CODE_EION` (R6). -/
abbrev CODE_EION : Half := 0x3361

/-- The configuration State.reset holds. `modes`, `fans`, `swings`, `hdrRepeat` and the header durations are the
spec's reference values "from general knowledge, not in source" (R93 to R95, R97, R244): PRESUMED, log 3. The eight
short codes have no value anywhere (N3) and are the model's DESIGN CHOICE, log 4. `txCapacity` and `literalErrorRows`
are the spec's defaults (R7), log 8 and 21. -/
def Config.reference : Config where
  modes := { auto := 0, dry := 2, cool := 3, heat := 4, fan := 6 }
  fans := { auto := 0xA, one := 3, two := 4, three := 5, four := 6, five := 7 }
  swings := { auto := 0xF, one := 1, two := 2, three := 3, four := 4, five := 5 }
  shorts := { patrol := 1, quiet := 2, powerful := 3, check := 4, setAir1 := 5, setAir2 := 6, setAir3 := 7, acReset := 8 }
  hdrRepeat := #v[0x02, 0x20, 0xE0, 0x04, 0x00, 0x00, 0x00, 0x06]
  txHdrMark := 3200
  txHdrSpace := 1600
  txBitMark := 400
  txSpace0 := 400
  txSpace1 := 1200
  txEndMark := 400
  txCapacity := 19
  literalErrorRows := false

end Sys2Proof
end

