-- ==== Sys2Proof/Syntax.lean ====
section
/-! DEFINITION. The values that cross the codec's boundary and the 31 instructions: one constructor of `Instr` per
row of spec/opcode_table.json (30_encoding.md R111). -/

namespace Sys2Proof

/-- R12: `Symbol = Header | Bit0 | Bit1 | End | Invalid`. -/
inductive Symbol where
  | header | bit0 | bit1 | endFrame | invalid
  deriving DecidableEq, Repr

/-- The `State` variant of `Command` (R31): `temperature` is a `u5` (R33 (a)), the timer fields are `u16`. -/
structure StateCommand where
  mode : Mode
  swing : Swing
  fan : Fan
  temperature : BitVec 5
  power : Bool
  onTimer : Bool
  offTimer : Bool
  onTime : Half
  offTime : Half
  time : Half
  noTime : Bool
  deriving DecidableEq, Repr, Inhabited

/-- R31: the tagged union with its two variants. -/
inductive Command where
  | short (s : ShortCommand)
  | state (c : StateCommand)
  deriving DecidableEq, Repr, Inhabited

/-- The free value of R284: the "zeroed/default `Command`" the host's device starts with, which the spec does not decide
(N12, U18 "any value"). Nothing constrains it. DESIGN CHOICE, log 35. -/
opaque Config.startCommand : Command

/-- One pulse pair `(mark, space)` (R80). -/
structure PulsePair where
  mark : Nat
  space : Nat
  deriving DecidableEq, Repr

/-- Every bit of bytes 4 to 17 of an F19 frame (R84), the ignored ones included; bytes 0..3 are `FRAME_HDR` and byte
18 is the checksum, so these fields determine the frame. -/
structure StateFrame where
  /-- byte 4, ignored -/
  byte4 : Byte
  /-- byte 5, bits 7:4 -/
  modeCode : Nibble
  /-- byte 5, bit 3, ignored -/
  byte5bit3 : Bool
  /-- byte 5, bit 2 -/
  offTimer : Bool
  /-- byte 5, bit 1 -/
  onTimer : Bool
  /-- byte 5, bit 0 -/
  power : Bool
  /-- byte 6, bits 7:6, ignored -/
  byte6hi : BitVec 2
  /-- byte 6, bits 5:1 -/
  temperature : BitVec 5
  /-- byte 6, bit 0, ignored -/
  byte6bit0 : Bool
  /-- byte 7, ignored -/
  byte7 : Byte
  /-- byte 8, bits 7:4 -/
  fanCode : Nibble
  /-- byte 8, bits 3:0 -/
  swingCode : Nibble
  /-- byte 9, ignored -/
  byte9 : Byte
  /-- byte 10 and byte 11 bits 3:0 (R88) -/
  onTime : BitVec 12
  /-- byte 11 bits 7:4 and byte 12 (R88) -/
  offTime : BitVec 12
  /-- byte 13, ignored -/
  byte13 : Byte
  /-- byte 14, ignored -/
  byte14 : Byte
  /-- byte 15, bits 7:1, ignored -/
  byte15hi : BitVec 7
  /-- byte 15, bit 0 (R89) -/
  noTime : Bool
  /-- bytes 16 and 17 (R90) -/
  time : Half
  deriving DecidableEq, Repr

/-- The instructions. SYM.* are the pulse pairs of R81, FRAME.* the frames of R83 and R84, the rest the operations of
R110. `r` is the receive stream an operation on a `FrameAssemblyState` works on (R330). In the F8 rows `ign` is
`bytes[4][6:0]`, which DECODE ignores (R99). -/
inductive Instr where
  | symEnd (mark : Nat)
  | symHeader (mark space : Nat)
  | symInvalid (mark space : Nat)
  | symBit0 (mark space : Nat)
  | symBit1 (mark space : Nat)
  | frameHeaderProbe (ign : BitVec 7) (byte5 byte6 : Byte)
  | frameShortEion (ign : BitVec 7)
  | frameShortPatrol (ign : BitVec 7)
  | frameShortQuiet (ign : BitVec 7)
  | frameShortPowerful (ign : BitVec 7)
  | frameShortCheck (ign : BitVec 7)
  | frameShortSetAir1 (ign : BitVec 7)
  | frameShortSetAir2 (ign : BitVec 7)
  | frameShortSetAir3 (ign : BitVec 7)
  | frameShortAcReset (ign : BitVec 7)
  | frameShortUnknown (ign : BitVec 7) (code : Half)
  | frameState (f : StateFrame)
  | classify (mark space : Nat)
  | asmHeader (r : Nat)
  | asmInvalid (r : Nat)
  | asmEnd (r : Nat)
  | asmBit0 (r : Nat)
  | asmBit1 (r : Nat)
  | decode (bytes : List Byte) (length : Nat)
  | encodeShort (c : ShortCommand) (capacity : Nat)
  | encodeState (c : StateCommand) (capacity : Nat)
  | pulseEncode (data : List Byte)
  | rxPair (r : Nat) (mark space : Nat)
  | rxGap (r : Nat)
  | txCommand (c : Command)
  | reset (r : Nat)
  deriving DecidableEq, Repr

/-- What the host drives on the block's ports. "An operation is selected by which port the host drives (and, for
`ASM.*`, by the symbol), not by a bit pattern" (R110); a PAIR row is a pair of durations, an F8 or F19 row a byte
string (R111). DESIGN CHOICE, log 1 and 2. -/
inductive PortWord where
  /-- layer 1: a pulse pair, read by the regions of R81 -/
  | pair (mark space : Nat)
  /-- layer 3: a byte string, read by the frame formats of R83 and R84 -/
  | frame (bytes : List Byte)
  /-- the classifier's port -/
  | classify (mark space : Nat)
  /-- the assembler's port of stream `r`, driven with a symbol -/
  | symbol (r : Nat) (sym : Symbol)
  /-- the codec's decode port -/
  | decode (bytes : List Byte) (length : Nat)
  /-- the codec's encode port -/
  | encode (c : Command) (capacity : Nat)
  /-- the pulse encoder's port -/
  | pulseEncode (data : List Byte)
  /-- the receive port of stream `r`, one captured pair -/
  | rxPair (r : Nat) (mark space : Nat)
  /-- the receive port of stream `r`, the idle-gap indication -/
  | rxGap (r : Nat)
  /-- the transmit port -/
  | txCommand (c : Command)
  /-- the reset input of stream `r` -/
  | reset (r : Nat)
  deriving DecidableEq, Repr

/-- The fields that `DecodeInvalidField` can name (R12). -/
inductive FieldName where
  | mode | swing | fan
  deriving DecidableEq, Repr

/-- Frame errors E1, E2, E3 of R310. -/
inductive FrameError where
  | invalidSymbol | overflow | incompleteByte
  deriving DecidableEq, Repr

/-- Decode errors E4 to E8 of R310. -/
inductive DecodeError where
  | invalidLength | invalidChecksum | invalidHeader | unknownCommand
  | invalidField (name : FieldName)
  deriving DecidableEq, Repr

/-- Encode error E9 of R310. -/
inductive EncodeError where
  | bufferTooSmall
  deriving DecidableEq, Repr

/-- Why a port word is no instruction. -/
inductive Reject where
  /-- a byte string that is no row of F8 or F19: its length, its checksum or its first four bytes (R100, layer 3) -/
  | frame (e : DecodeError)
  /-- DECODE with fewer than `length` bytes (U6 of 93_implementation_defined.md) -/
  | operandTooShort
  deriving DecidableEq, Repr

end Sys2Proof
end

