-- ==== Sys2Proof/Machine/Operands.lean ====
section
/-! DEFINITION. Operand helpers: byte and bit access, the checksum, little-endian halves and the code tables. -/

namespace Sys2Proof

/-- `bytes[i]` (R10). Callers read only indices below the length they have checked (R189). -/
def byteAt (bytes : List Byte) (i : Nat) : Byte := bytes.getD i 0

/-- `sum8(b, n)` (R11, R91): the sum of bytes `[0, n)` modulo 256, no carry folded back. -/
def sum8 (bytes : List Byte) (n : Nat) : Byte := (bytes.take n).foldr (· + ·) 0

/-- `le16(lo, hi) = lo + 256*hi` (R10, R55). -/
def le16 (lo hi : Byte) : Half := lo.setWidth 16 ||| (hi.setWidth 16 <<< 8)

/-- `v[7:0]` of a 16-bit value. -/
def loByte (v : Half) : Byte := v.extractLsb' 0 8

/-- `v[15:8]` of a 16-bit value. -/
def hiByte (v : Half) : Byte := v.extractLsb' 8 8

/-- A bool as bit `k` of a byte, `true` = 1 (R10, R89, R213). -/
def boolAt (b : Bool) (k : Nat) : Byte := (BitVec.ofBool b).setWidth 8 <<< k

/-- A field of a byte, its bit 0 at bit `k`. -/
def fieldAt {w : Nat} (v : BitVec w) (k : Nat) : Byte := v.setWidth 8 <<< k

/-- `MODE_CODE` (R93). -/
def Config.modeCode (cfg : Config) : Mode → Nibble
  | .auto => cfg.modes.auto
  | .dry => cfg.modes.dry
  | .cool => cfg.modes.cool
  | .heat => cfg.modes.heat
  | .fan => cfg.modes.fan

/-- `FAN_CODE` (R94). -/
def Config.fanCode (cfg : Config) : Fan → Nibble
  | .auto => cfg.fans.auto
  | .one => cfg.fans.one
  | .two => cfg.fans.two
  | .three => cfg.fans.three
  | .four => cfg.fans.four
  | .five => cfg.fans.five

/-- `SWING_CODE` (R95). -/
def Config.swingCode (cfg : Config) : Swing → Nibble
  | .auto => cfg.swings.auto
  | .one => cfg.swings.one
  | .two => cfg.swings.two
  | .three => cfg.swings.three
  | .four => cfg.swings.four
  | .five => cfg.swings.five

/-- `SHORT_CODE` (R96); EIon's value is fixed (R6). -/
def Config.shortCode (cfg : Config) : ShortCommand → Half
  | .eion => CODE_EION
  | .patrol => cfg.shorts.patrol
  | .quiet => cfg.shorts.quiet
  | .powerful => cfg.shorts.powerful
  | .check => cfg.shorts.check
  | .setAir1 => cfg.shorts.setAir1
  | .setAir2 => cfg.shorts.setAir2
  | .setAir3 => cfg.shorts.setAir3
  | .acReset => cfg.shorts.acReset

/-- The members of `Mode` (R31). -/
def Mode.all : List Mode := [.auto, .dry, .cool, .heat, .fan]
/-- The members of `Fan` (R31). -/
def Fan.all : List Fan := [.auto, .one, .two, .three, .four, .five]
/-- The members of `Swing` (R31). -/
def Swing.all : List Swing := [.auto, .one, .two, .three, .four, .five]
/-- The nine members of `ShortCommand` (R32). -/
def ShortCommand.all : List ShortCommand :=
  [.eion, .patrol, .quiet, .powerful, .check, .setAir1, .setAir2, .setAir3, .acReset]

/-- `MODE_CODE` inverse: the mode with that code, none outside the image (R93). -/
def Config.modeOf? (cfg : Config) (n : Nibble) : Option Mode := Mode.all.find? (fun m => cfg.modeCode m == n)
/-- `FAN_CODE` inverse (R94). -/
def Config.fanOf? (cfg : Config) (n : Nibble) : Option Fan := Fan.all.find? (fun m => cfg.fanCode m == n)
/-- `SWING_CODE` inverse (R95). -/
def Config.swingOf? (cfg : Config) (n : Nibble) : Option Swing := Swing.all.find? (fun m => cfg.swingCode m == n)
/-- `SHORT_CODE` inverse (R96). -/
def Config.shortOf? (cfg : Config) (code : Half) : Option ShortCommand :=
  ShortCommand.all.find? (fun s => cfg.shortCode s == code)

/-- A frame from its first `L - 1` bytes: the checksum of R91 stands last. -/
def withChecksum (body : List Byte) : List Byte := body ++ [sum8 body body.length]

/-- The bytes of an F8 frame (R83) from `kind`, `bytes[4][6:0]`, `bytes[5]` and `bytes[6]`. -/
def frame8 (kind : Bool) (ign : BitVec 7) (b5 b6 : Byte) : List Byte :=
  withChecksum (FRAME_HDR ++ [boolAt kind 7 ||| fieldAt ign 0, b5, b6])

/-- The bytes of an F19 frame (R84) from its fields. -/
def StateFrame.bytes (f : StateFrame) : List Byte :=
  withChecksum (FRAME_HDR ++
    [ f.byte4,
      fieldAt f.modeCode 4 ||| boolAt f.byte5bit3 3 ||| boolAt f.offTimer 2 ||| boolAt f.onTimer 1 ||| boolAt f.power 0,
      fieldAt f.byte6hi 6 ||| fieldAt f.temperature 1 ||| boolAt f.byte6bit0 0,
      f.byte7,
      fieldAt f.fanCode 4 ||| fieldAt f.swingCode 0,
      f.byte9,
      f.onTime.extractLsb' 0 8,
      fieldAt (f.offTime.extractLsb' 0 4) 4 ||| fieldAt (f.onTime.extractLsb' 8 4) 0,
      f.offTime.extractLsb' 4 8,
      f.byte13,
      f.byte14,
      fieldAt f.byte15hi 1 ||| boolAt f.noTime 0,
      loByte f.time,
      hiByte f.time ])

/-- The fields of an F19 frame (R84) from its bytes. -/
def StateFrame.ofBytes (bytes : List Byte) : StateFrame where
  byte4 := byteAt bytes 4
  modeCode := (byteAt bytes 5).extractLsb' 4 4
  byte5bit3 := (byteAt bytes 5).getLsbD 3
  offTimer := (byteAt bytes 5).getLsbD 2
  onTimer := (byteAt bytes 5).getLsbD 1
  power := (byteAt bytes 5).getLsbD 0
  byte6hi := (byteAt bytes 6).extractLsb' 6 2
  temperature := (byteAt bytes 6).extractLsb' 1 5
  byte6bit0 := (byteAt bytes 6).getLsbD 0
  byte7 := byteAt bytes 7
  fanCode := (byteAt bytes 8).extractLsb' 4 4
  swingCode := (byteAt bytes 8).extractLsb' 0 4
  byte9 := byteAt bytes 9
  onTime := (byteAt bytes 10).setWidth 12 ||| (((byteAt bytes 11).extractLsb' 0 4).setWidth 12 <<< 8)
  offTime := ((byteAt bytes 11).extractLsb' 4 4).setWidth 12 ||| ((byteAt bytes 12).setWidth 12 <<< 4)
  byte13 := byteAt bytes 13
  byte14 := byteAt bytes 14
  byte15hi := (byteAt bytes 15).extractLsb' 1 7
  noTime := (byteAt bytes 15).getLsbD 0
  time := le16 (byteAt bytes 16) (byteAt bytes 17)

end Sys2Proof
end

