-- ==== Sys2Proof/WellFormed.lean ====
section
/-! DEFINITION. Well-formed configurations (70_reset_and_hazards.md R352 (1)) and well-formed instructions. -/

namespace Sys2Proof

/-- Region `Header` of R81. -/
abbrev regionHeader (mark space : Nat) : Prop :=
  1 ≤ space ∧ ((2701 ≤ mark ∧ space < mark) ∨ (1601 ≤ space ∧ mark < space))

/-- Region `Invalid` of R81. -/
abbrev regionInvalid (mark space : Nat) : Prop :=
  1 ≤ space ∧ ¬ regionHeader mark space ∧ (mark ≤ 249 ∨ 551 ≤ mark)

/-- Region `Bit0` of R81. -/
abbrev regionBit0 (mark space : Nat) : Prop :=
  1 ≤ space ∧ ¬ regionHeader mark space ∧ 250 ≤ mark ∧ mark ≤ 550 ∧ space < 2 * mark

/-- Region `Bit1` of R81. -/
abbrev regionBit1 (mark space : Nat) : Prop :=
  1 ≤ space ∧ ¬ regionHeader mark space ∧ 250 ≤ mark ∧ mark ≤ 550 ∧ 2 * mark ≤ space

/-- The four code tables are injective (R93 to R96, R352 (1)). -/
abbrev Config.codesInjective (cfg : Config) : Prop :=
  (Mode.all.map cfg.modeCode).Nodup ∧ (Fan.all.map cfg.fanCode).Nodup ∧
    (Swing.all.map cfg.swingCode).Nodup ∧ (ShortCommand.all.map cfg.shortCode).Nodup

/-- The constraints on the transmit durations, as R243 spells them out. -/
abbrev Config.durationsValid (cfg : Config) : Prop :=
  (1 ≤ cfg.txHdrSpace ∧ ((2700 < cfg.txHdrMark ∧ cfg.txHdrSpace < cfg.txHdrMark) ∨
    (1600 < cfg.txHdrSpace ∧ cfg.txHdrMark < cfg.txHdrSpace))) ∧
  (250 ≤ cfg.txBitMark ∧ cfg.txBitMark ≤ 550) ∧
  (1 ≤ cfg.txSpace0 ∧ cfg.txSpace0 < 2 * cfg.txBitMark) ∧
  (2 * cfg.txBitMark ≤ cfg.txSpace1 ∧ cfg.txSpace1 ≤ 1600)

/-- Every constraint that R352 (1) puts on the open parameters. -/
abbrev Config.valid (cfg : Config) : Prop := cfg.codesInjective ∧ cfg.durationsValid

/-- A well-formed instruction: a SYM row's pair lies in its region (R81); an unknown short frame's code is outside the
image of `SHORT_CODE` (R111); DECODE has at least `length` bytes (R189, U6). The other rows hold by their types. -/
def Instr.wellFormed (cfg : Config) : Instr → Bool
  | .symHeader mark space => decide (regionHeader mark space)
  | .symInvalid mark space => decide (regionInvalid mark space)
  | .symBit0 mark space => decide (regionBit0 mark space)
  | .symBit1 mark space => decide (regionBit1 mark space)
  | .frameShortUnknown _ code => (cfg.shortOf? code).isNone
  | .decode bytes length => decide (length ≤ bytes.length)
  | .symEnd _ => true
  | .frameHeaderProbe _ _ _ => true
  | .frameShortEion _ => true
  | .frameShortPatrol _ => true
  | .frameShortQuiet _ => true
  | .frameShortPowerful _ => true
  | .frameShortCheck _ => true
  | .frameShortSetAir1 _ => true
  | .frameShortSetAir2 _ => true
  | .frameShortSetAir3 _ => true
  | .frameShortAcReset _ => true
  | .frameState _ => true
  | .classify _ _ => true
  | .asmHeader _ => true
  | .asmInvalid _ => true
  | .asmEnd _ => true
  | .asmBit0 _ => true
  | .asmBit1 _ => true
  | .encodeShort _ _ => true
  | .encodeState _ _ => true
  | .pulseEncode _ => true
  | .rxPair _ _ _ => true
  | .rxGap _ => true
  | .txCommand _ => true
  | .reset _ => true

end Sys2Proof
end

