-- ==== Sys2Proof/Decode.lean ====
section
/-! DEFINITION. From port words to instructions, total, rejecting by name; and the encoder, written from the same
tables (30_encoding.md R81, R83, R84, R110, R111). -/

namespace Sys2Proof

/-- The PAIR rows: the region of R81 that holds `(mark, space)`. Every pair lies in exactly one. -/
def decodePair (mark space : Nat) : Instr :=
  if space = 0 then .symEnd mark
  else if regionHeader mark space then .symHeader mark space
  else if regionInvalid mark space then .symInvalid mark space
  else if regionBit0 mark space then .symBit0 mark space
  else .symBit1 mark space

/-- The F8 row of a short command (R83, R96). -/
def frameShortInstr (ign : BitVec 7) : ShortCommand → Instr
  | .eion => .frameShortEion ign
  | .patrol => .frameShortPatrol ign
  | .quiet => .frameShortQuiet ign
  | .powerful => .frameShortPowerful ign
  | .check => .frameShortCheck ign
  | .setAir1 => .frameShortSetAir1 ign
  | .setAir2 => .frameShortSetAir2 ign
  | .setAir3 => .frameShortSetAir3 ign
  | .acReset => .frameShortAcReset ign

/-- The F8 rows: bit 7 of byte 4 tells HeaderProbe from ShortCommand, the code tells the command (R83, R98). -/
def decodeF8 (cfg : Config) (bytes : List Byte) : Instr :=
  let ign := (byteAt bytes 4).extractLsb' 0 7
  let code := le16 (byteAt bytes 5) (byteAt bytes 6)
  if (byteAt bytes 4).getLsbD 7 = false then .frameHeaderProbe ign (byteAt bytes 5) (byteAt bytes 6)
  else
    match cfg.shortOf? code with
    | some c => frameShortInstr ign c
    | none => .frameShortUnknown ign code

/-- The frame rows: the length selects the format (R98); the checksum (R91) and `FRAME_HDR` must hold (R111). -/
def decodeFrame (cfg : Config) (bytes : List Byte) : Except Reject Instr :=
  if bytes.length ≠ LEN_SHORT ∧ bytes.length ≠ LEN_STATE then .error (.frame .invalidLength)
  else if sum8 bytes (bytes.length - 1) ≠ byteAt bytes (bytes.length - 1) then .error (.frame .invalidChecksum)
  else if bytes.take 4 ≠ FRAME_HDR then .error (.frame .invalidHeader)
  else if bytes.length = LEN_SHORT then .ok (decodeF8 cfg bytes)
  else .ok (.frameState (StateFrame.ofBytes bytes))

/-- The assembler's operation for a symbol (R150). -/
def decodeSymbol (r : Nat) : Symbol → Instr
  | .header => .asmHeader r
  | .invalid => .asmInvalid r
  | .endFrame => .asmEnd r
  | .bit0 => .asmBit0 r
  | .bit1 => .asmBit1 r

/-- The instruction a port word selects (R110, R111). -/
def decodeWord (cfg : Config) : PortWord → Except Reject Instr
  | .pair mark space => .ok (decodePair mark space)
  | .frame bytes => decodeFrame cfg bytes
  | .classify mark space => .ok (.classify mark space)
  | .symbol r sym => .ok (decodeSymbol r sym)
  | .decode bytes length => if bytes.length < length then .error .operandTooShort else .ok (.decode bytes length)
  | .encode (.short c) capacity => .ok (.encodeShort c capacity)
  | .encode (.state c) capacity => .ok (.encodeState c capacity)
  | .pulseEncode data => .ok (.pulseEncode data)
  | .rxPair r mark space => .ok (.rxPair r mark space)
  | .rxGap r => .ok (.rxGap r)
  | .txCommand c => .ok (.txCommand c)
  | .reset r => .ok (.reset r)

/-- The F8 frame of a short command, with `bytes[4][6:0] = ign` (R83, R92). -/
def shortFrame (cfg : Config) (ign : BitVec 7) (c : ShortCommand) : List Byte :=
  frame8 true ign (loByte (cfg.shortCode c)) (hiByte (cfg.shortCode c))

/-- The port word of an instruction. -/
def encodeWord (cfg : Config) : Instr → PortWord
  | .symEnd mark => .pair mark 0
  | .symHeader mark space => .pair mark space
  | .symInvalid mark space => .pair mark space
  | .symBit0 mark space => .pair mark space
  | .symBit1 mark space => .pair mark space
  | .frameHeaderProbe ign b5 b6 => .frame (frame8 false ign b5 b6)
  | .frameShortEion ign => .frame (shortFrame cfg ign .eion)
  | .frameShortPatrol ign => .frame (shortFrame cfg ign .patrol)
  | .frameShortQuiet ign => .frame (shortFrame cfg ign .quiet)
  | .frameShortPowerful ign => .frame (shortFrame cfg ign .powerful)
  | .frameShortCheck ign => .frame (shortFrame cfg ign .check)
  | .frameShortSetAir1 ign => .frame (shortFrame cfg ign .setAir1)
  | .frameShortSetAir2 ign => .frame (shortFrame cfg ign .setAir2)
  | .frameShortSetAir3 ign => .frame (shortFrame cfg ign .setAir3)
  | .frameShortAcReset ign => .frame (shortFrame cfg ign .acReset)
  | .frameShortUnknown ign code => .frame (frame8 true ign (loByte code) (hiByte code))
  | .frameState f => .frame f.bytes
  | .classify mark space => .classify mark space
  | .asmHeader r => .symbol r .header
  | .asmInvalid r => .symbol r .invalid
  | .asmEnd r => .symbol r .endFrame
  | .asmBit0 r => .symbol r .bit0
  | .asmBit1 r => .symbol r .bit1
  | .decode bytes length => .decode bytes length
  | .encodeShort c capacity => .encode (.short c) capacity
  | .encodeState c capacity => .encode (.state c) capacity
  | .pulseEncode data => .pulseEncode data
  | .rxPair r mark space => .rxPair r mark space
  | .rxGap r => .rxGap r
  | .txCommand c => .txCommand c
  | .reset r => .reset r

/-- The `n` bytes of a number whose byte 0 is its least significant: how the table numbers a frame's bits (byte 0 is
the first byte sent, R54; bit 0 of a byte is its least significant, R10). -/
def bytesOfNat (n w : Nat) : List Byte := (List.range n).map (fun i => BitVec.ofNat 8 (w >>> (8 * i)))

/-- The decoder on a table word. Only the F8 and F19 rows have bits (R111), so the word is a frame of `nbits / 8`
bytes; its length is part of its encoding (R98), so nothing is padded. Read at the reset configuration. DESIGN
CHOICE, log 2. -/
def decodeTableWord (nbits w : Nat) : Option Instr :=
  match decodeWord Config.reference (.frame (bytesOfNat (nbits / 8) w)) with
  | .ok i => some i
  | .error _ => none

end Sys2Proof
end

