-- ==== Sys2Proof/Machine/State.lean ====
section
/-! DEFINITION. The machine's state as plain data, the values its operations output, the reasons it can stop, and the
state after reset (10_state.md). -/

namespace Sys2Proof.Machine

/-- The 19-byte buffer as address and byte pairs in one canonical form (Machine/Ops.lean, `Memory.wf`). -/
abbrev Memory := List Host.Cell

/-- R20 to R25: the five registers of one receive stream. The types carry R27 (i) and (ii). -/
structure FrameAssemblyState where
  /-- `in_frame` (R21), the only flag (R29) -/
  inFrame : Bool
  /-- `bit_count`, 0..7 (R22) -/
  bitCount : Fin 8
  /-- `byte_count`, 0..19 (R23) -/
  byteCount : Fin 20
  /-- `current_byte` (R24) -/
  currentByte : Byte
  /-- `buffer : u8[19]` (R25, R50) -/
  buffer : Memory
  deriving DecidableEq, Repr

/-- `AsmEvent = None | FrameComplete(n, data) | Fail(e)` (R12). -/
inductive AsmEvent where
  | none
  | frameComplete (n : Nat) (data : List Byte)
  | fail (e : FrameError)
  deriving DecidableEq, Repr

/-- `DecodeResult = Cmd(c) | HeaderProbe | Err(e)` (R12). -/
inductive DecodeResult where
  | cmd (c : Command)
  | headerProbe
  | err (e : DecodeError)
  deriving DecidableEq, Repr

/-- `EncodeResult = Ok(data, L) | Err(EncodeBufferTooSmall)` (R12). -/
inductive EncodeResult where
  | ok (data : List Byte) (len : Nat)
  | err (e : EncodeError)
  deriving DecidableEq, Repr

/-- `PulseSeq`, a finite list of pulse pairs (R12). -/
abbrev PulseSeq := List PulsePair

/-- The errors an `RxEvent` can carry (R262): the three frame errors and the five decode errors. -/
inductive RxError where
  | frame (e : FrameError)
  | decode (e : DecodeError)
  deriving DecidableEq, Repr

/-- `RxEvent = NoEvent | Cmd(c) | HeaderProbe | Err(e)` (R262). -/
inductive RxEvent where
  | noEvent
  | cmd (c : Command)
  | headerProbe
  | err (e : RxError)
  deriving DecidableEq, Repr

/-- `TX_COMMAND`'s result: a pulse sequence or the encode error (R265). -/
inductive TxResult where
  | pulses (p : PulseSeq)
  | err (e : EncodeError)
  deriving DecidableEq, Repr

/-- The output of one operation (R8 "at most one output value", R110's output column). -/
inductive Output where
  | symbol (sym : Symbol)
  | asm (ev : AsmEvent)
  | decoded (res : DecodeResult)
  | encoded (res : EncodeResult)
  | pulses (p : PulseSeq)
  | rx (ev : RxEvent)
  | tx (res : TxResult)
  deriving DecidableEq, Repr

/-- The machine. `streams` is the block's state, one `FrameAssemblyState` per receiver (R20, R330). `cfg` is the
configuration, which no operation writes (R67, R351; log 3). `inputs`, `outputs` and `freeCount` are the model's own:
what the host has presented and not yet seen consumed (R63), what the block has handed back, both oldest first
(log 1, 22), and the counter behind the free values (log 6). -/
structure State where
  cfg : Config
  streams : List FrameAssemblyState
  inputs : List PortWord
  outputs : List Output
  freeCount : Nat
  deriving DecidableEq, Repr

/-- The stops of the machine that stand for the machine's own limits. -/
inductive Fault where
  /-- Raised by every operation on a `FrameAssemblyState` (ASM.*, RX_PAIR, RX_GAP, RESET) that names a receiver the
  system does not have: there is no such state to step (R330). Safe: nothing is claimed of it. Log 14. -/
  | noSuchReceiver (r : Nat)
  deriving DecidableEq, Repr

/-- What the machine gives no meaning. -/
inductive Refusal where
  /-- Answered by `exec` alone, for an instruction without a meaning. Safe. -/
  | notModelled (mnemonic : String)
  /-- Answered by DECODE with fewer bytes than its `length` operand: U6 of 93_implementation_defined.md says
  "refuse". Safe. Log 13. -/
  | decodeOperandTooShort
  deriving DecidableEq, Repr

/-- A `FrameAssemblyState` after reset (R37, D4). `buffer` is unspecified there: nothing listed, DESIGN CHOICE, log 5. -/
def FrameAssemblyState.reset : FrameAssemblyState where
  inFrame := false
  bitCount := 0
  byteCount := 0
  currentByte := 0x00
  buffer := []

/-- The machine after reset: one receiver ("The source's system has one", R330) in the reset state of R37, the
reference configuration (log 3, 4), no input presented and nothing output. -/
def State.reset : State where
  cfg := Config.reference
  streams := [FrameAssemblyState.reset]
  inputs := []
  outputs := []
  freeCount := 0

end Sys2Proof.Machine
end

