-- ==== Sys2Proof/Machine/Ops.lean ====
section
/-! DEFINITION. The shared operations: the buffer's bytes, a stream's registers, output, and raising an error
(60_exceptions.md). -/

namespace Sys2Proof.Machine

/-- What an unlisted byte of the buffer reads as. The spec leaves the buffer unspecified after reset (R25, R37) and no
output reveals it (R36). DESIGN CHOICE, unsafe, log 5. -/
def Memory.unlisted : Byte := 0x00

/-- `buffer[i]` (R11 "MemRead(i, 1)"). -/
def Memory.read : Memory → Nat → Byte
  | [], _ => Memory.unlisted
  | (k, v) :: rest, a => if k = a then v else Memory.read rest a

/-- `buffer[i] <- v` (R11 "MemWrite(i, 1, v)"): keeps addresses rising and lists no byte equal to an unlisted one. -/
def Memory.write : Memory → Nat → Byte → Memory
  | [], a, v => if v = Memory.unlisted then [] else [(a, v)]
  | (k, w) :: rest, a, v =>
    if a < k then (if v = Memory.unlisted then (k, w) :: rest else (a, v) :: (k, w) :: rest)
    else if a = k then (if v = Memory.unlisted then rest else (a, v) :: rest)
    else (k, w) :: Memory.write rest a v

/-- `buffer[0..n)` as a byte string (R60). -/
def Memory.slice (m : Memory) (n : Nat) : List Byte := (List.range n).map m.read

/-- The buffer whose byte `i` is `f i`, for the 19 addresses of R50. -/
def Memory.fill (f : Nat → Byte) : Memory := (List.range CAPACITY).foldl (fun m i => m.write i (f i)) []

/-- Addresses strictly rising from `lo`, each below CAPACITY (R50), and no entry equal to an unlisted byte. -/
def Memory.wfFrom : Nat → Memory → Bool
  | _, [] => true
  | lo, (k, v) :: rest => decide (lo ≤ k) && decide (k < CAPACITY) && decide (v ≠ Memory.unlisted) && Memory.wfFrom (k + 1) rest

/-- The canonical form of a buffer. -/
def Memory.wf (m : Memory) : Bool := Memory.wfFrom 0 m

/-- The state with stream `r` replaced. -/
def State.setStream (s : State) (r : Nat) (a : FrameAssemblyState) : State :=
  { s with streams := s.streams.set r a }

/-- `emit` (R11): the operation's output, handed to the host after the earlier ones (R63). -/
def State.emit (s : State) (o : Output) : State := { s with outputs := s.outputs ++ [o] }

/-- One step of the receive agent of stream `r` (R9 (a), R58): the registers and the output together. -/
def onStream (r : Nat) (f : FrameAssemblyState → FrameAssemblyState × Output) (s : State) :
    Host.Outcome State Fault Refusal :=
  match s.streams[r]? with
  | some a => .next ((s.setStream r (f a).1).emit (f a).2)
  | none => .fault (.noSuchReceiver r)

/-- Entry of a frame error (R324): "in_frame <- false, bit_count <- 0, byte_count <- 0 and nothing else". The same three
writes close a frame at `End` (R153). -/
def FrameAssemblyState.toIdle (a : FrameAssemblyState) : FrameAssemblyState :=
  { a with inFrame := false, bitCount := 0, byteCount := 0 }

/-- Raising a frame error in the assembler (R11 "emit Fail(X) followed by the state writes the rule lists"). The writes
are those of R324; with `literalErrorRows` the rows of the source's table, which write `in_frame` alone (D5, log 8).
There is no return operation: the next `Header` starts a new frame (R325, `FrameAssemblyState.startFrame`). -/
def FrameAssemblyState.raise (cfg : Config) (a : FrameAssemblyState) (e : FrameError) :
    FrameAssemblyState × AsmEvent :=
  (if cfg.literalErrorRows then { a with inFrame := false } else a.toIdle, .fail e)

/-- Leaving the error condition (R325), and the start of every frame (R151). -/
def FrameAssemblyState.startFrame (a : FrameAssemblyState) : FrameAssemblyState :=
  { a with inFrame := true, bitCount := 0, byteCount := 0 }

/-- Raising a codec error: it is the operation's result and changes nothing else (R316 to R320, R322, R324). -/
def raiseDecode (e : DecodeError) (s : State) : Host.Outcome State Fault Refusal :=
  .next (s.emit (.decoded (.err e)))

/-- A port word that is no instruction: a byte string that is no frame row is DECODE's error for it (R100, layer 3;
log 12); a DECODE operand that is too short is refused (U6). -/
def takeReject (e : Reject) (s : State) : Host.Outcome State Fault Refusal :=
  match e with
  | .frame d => raiseDecode d s
  | .operandTooShort => .refused .decodeOperandTooShort

end Sys2Proof.Machine
end

