-- ==== Sys2Proof/Machine/Flags.lean ====
section
/-! DEFINITION. The one flag, `in_frame` (R29), and what reads it. -/

namespace Sys2Proof.Machine

/-- `idle` of R27, R353: not in a frame and both counters 0. -/
def FrameAssemblyState.quiescent (a : FrameAssemblyState) : Bool :=
  !a.inFrame && a.bitCount == 0 && a.byteCount == 0

/-- `in_frame` selects the row a data bit takes (R21): the common body in a frame (R154), no effect outside (R155). -/
def whenInFrame (a : FrameAssemblyState) (body : FrameAssemblyState × AsmEvent) : FrameAssemblyState × AsmEvent :=
  if a.inFrame then body else (a, .none)

end Sys2Proof.Machine
end

