-- ==== Sys2Proof/Machine/Assembler.lean ====
section
/-! DEFINITION. The Frame Assembler (41_assembler.md): the five ASM steps. -/

namespace Sys2Proof.Machine

/-- `current_byte[k] <- b`, "other 7 bits unchanged" (R24, R154). -/
def setBit (v : Byte) (k : Nat) (b : Bool) : Byte :=
  if b then v ||| (1#8 <<< k) else v &&& ~~~(1#8 <<< k)

/-- `push_bit` (R154). `byte_count = 19` at the eighth bit is the overflow. -/
def pushBit (cfg : Config) (b : Bool) (a : FrameAssemblyState) : FrameAssemblyState × AsmEvent :=
  let v := setBit a.currentByte a.bitCount b
  if hb : a.bitCount.val < 7 then
    ({ a with currentByte := v, bitCount := ⟨a.bitCount.val + 1, by omega⟩ }, .none)
  else if hn : a.byteCount.val < 19 then
    ({ a with
        currentByte := v
        bitCount := 0
        buffer := a.buffer.write a.byteCount.val v
        byteCount := ⟨a.byteCount.val + 1, by omega⟩ }, .none)
  else
    FrameAssemblyState.raise cfg { a with currentByte := v, bitCount := 0 } .overflow

/-- ASM.HEADER (R151). -/
def asmHeader (a : FrameAssemblyState) : FrameAssemblyState × AsmEvent := (a.startFrame, .none)

/-- ASM.INVALID (R152), in any state. -/
def asmInvalid (cfg : Config) (a : FrameAssemblyState) : FrameAssemblyState × AsmEvent := a.raise cfg .invalidSymbol

/-- ASM.END (R153), in any state: a copy of `buffer[0..byte_count)` when byte-aligned (R56, R60). -/
def asmEnd (a : FrameAssemblyState) : FrameAssemblyState × AsmEvent :=
  if a.bitCount = 0 then (a.toIdle, .frameComplete a.byteCount.val (a.buffer.slice a.byteCount.val))
  else (a.toIdle, .fail .incompleteByte)

/-- ASM.BIT0 (R156). -/
def asmBit0 (cfg : Config) (a : FrameAssemblyState) : FrameAssemblyState × AsmEvent :=
  whenInFrame a (pushBit cfg false a)

/-- ASM.BIT1 (R157). -/
def asmBit1 (cfg : Config) (a : FrameAssemblyState) : FrameAssemblyState × AsmEvent :=
  whenInFrame a (pushBit cfg true a)

/-- `ASM(st, sym)` (R150): the symbol selects the operation. -/
def asmStep (cfg : Config) (a : FrameAssemblyState) : Symbol → FrameAssemblyState × AsmEvent
  | .header => asmHeader a
  | .invalid => asmInvalid cfg a
  | .endFrame => asmEnd a
  | .bit0 => asmBit0 cfg a
  | .bit1 => asmBit1 cfg a

/-- An assembler step whose event is the operation's output. -/
def outputEvent (p : FrameAssemblyState × AsmEvent) : FrameAssemblyState × Output := (p.1, .asm p.2)

/-- ASM.HEADER on stream `r` (R151). -/
def execAsmHeader (r : Nat) (s : State) : Host.Outcome State Fault Refusal :=
  onStream r (fun a => outputEvent (asmHeader a)) s

/-- ASM.INVALID on stream `r` (R152). -/
def execAsmInvalid (r : Nat) (s : State) : Host.Outcome State Fault Refusal :=
  onStream r (fun a => outputEvent (asmInvalid s.cfg a)) s

/-- ASM.END on stream `r` (R153). -/
def execAsmEnd (r : Nat) (s : State) : Host.Outcome State Fault Refusal :=
  onStream r (fun a => outputEvent (asmEnd a)) s

/-- ASM.BIT0 on stream `r` (R156). -/
def execAsmBit0 (r : Nat) (s : State) : Host.Outcome State Fault Refusal :=
  onStream r (fun a => outputEvent (asmBit0 s.cfg a)) s

/-- ASM.BIT1 on stream `r` (R157). -/
def execAsmBit1 (r : Nat) (s : State) : Host.Outcome State Fault Refusal :=
  onStream r (fun a => outputEvent (asmBit1 s.cfg a)) s

/-- The registers RESET leaves in a stream (R350, R37): `buffer` is a free value, fresh for each RESET (log 6). -/
def FrameAssemblyState.afterReset (n : Nat) : FrameAssemblyState where
  inFrame := false
  bitCount := 0
  byteCount := 0
  currentByte := 0x00
  buffer := Memory.fill (Config.freeByte n)

/-- RESET of stream `r` (R350): it emits no event; the configuration and the other streams are not affected (R351). -/
def execReset (r : Nat) (s : State) : Host.Outcome State Fault Refusal :=
  match s.streams[r]? with
  | some _ => .next { s.setStream r (FrameAssemblyState.afterReset s.freeCount) with freeCount := s.freeCount + 1 }
  | none => .fault (.noSuchReceiver r)

end Sys2Proof.Machine
end

