-- ==== Sys2Proof/Machine/Classifier.lean ====
section
/-! DEFINITION. The Pulse Classifier (40_classifier.md): CLASSIFY and the five pulse-pair rows. -/

namespace Sys2Proof.Machine

/-- R130: the four rules, evaluated in order. `2 * mark` is the pair's own mark (R134, C1). -/
def classify (mark space : Nat) : Symbol :=
  if space = 0 then .endFrame
  else if (HDR_MARK_THR < mark ∧ space < mark) ∨ (HDR_SPACE_THR < space ∧ mark < space) then .header
  else if mark < MARK_US - MARK_TOL ∨ MARK_US + MARK_TOL < mark then .invalid
  else if space < 2 * mark then .bit0
  else .bit1

/-- The classifier's verdict as an output; no state is read or written (R135, R138). -/
def outputSymbol (mark space : Nat) (s : State) : Host.Outcome State Fault Refusal :=
  .next (s.emit (.symbol (classify mark space)))

/-- CLASSIFY (R130). -/
def execClassify (mark space : Nat) (s : State) : Host.Outcome State Fault Refusal := outputSymbol mark space s

/-- SYM.END (R131): a pair with space 0. Log 11. -/
def execSymEnd (mark : Nat) (s : State) : Host.Outcome State Fault Refusal := outputSymbol mark 0 s

/-- SYM.HEADER (R132). -/
def execSymHeader (mark space : Nat) (s : State) : Host.Outcome State Fault Refusal := outputSymbol mark space s

/-- SYM.INVALID (R133). -/
def execSymInvalid (mark space : Nat) (s : State) : Host.Outcome State Fault Refusal := outputSymbol mark space s

/-- SYM.BIT0 (R134). -/
def execSymBit0 (mark space : Nat) (s : State) : Host.Outcome State Fault Refusal := outputSymbol mark space s

/-- SYM.BIT1 (R134). -/
def execSymBit1 (mark space : Nat) (s : State) : Host.Outcome State Fault Refusal := outputSymbol mark space s

end Sys2Proof.Machine
end

