-- ==== Sys2Proof/Machine/Codec.lean ====
section
/-! DEFINITION. The Frame Codec (42_codec_decode.md, 43_codec_encode.md): the frame rows, DECODE and ENCODE. -/

namespace Sys2Proof.Machine

/-- Step 5 of DECODE (R185): the code must be one of the nine. -/
def decodeShort (cfg : Config) (code : Half) : DecodeResult :=
  match cfg.shortOf? code with
  | some c => .cmd (.short c)
  | none => .err .unknownCommand

/-- Step 6 of DECODE (R186, R190, R191): mode, then swing, then fan must be known (D9); the temperature and the timer
fields are taken as found; the ignored bits of R99 are not looked at. -/
def decodeState (cfg : Config) (f : StateFrame) : DecodeResult :=
  match cfg.modeOf? f.modeCode with
  | none => .err (.invalidField .mode)
  | some mode =>
    match cfg.swingOf? f.swingCode with
    | none => .err (.invalidField .swing)
    | some swing =>
      match cfg.fanOf? f.fanCode with
      | none => .err (.invalidField .fan)
      | some fan =>
        .cmd (.state
          { mode, swing, fan, temperature := f.temperature, power := f.power, onTimer := f.onTimer,
            offTimer := f.offTimer, onTime := f.onTime.setWidth 16, offTime := f.offTime.setWidth 16,
            time := f.time, noTime := f.noTime })

/-- DECODE (R180): the six steps in order (R187). -/
def codecDecode (cfg : Config) (bytes : List Byte) (length : Nat) : DecodeResult :=
  if length ≠ LEN_SHORT ∧ length ≠ LEN_STATE then .err .invalidLength
  else if sum8 bytes (length - 1) ≠ byteAt bytes (length - 1) then .err .invalidChecksum
  else if bytes.take 4 ≠ FRAME_HDR then .err .invalidHeader
  else if length = LEN_SHORT then
    if (byteAt bytes 4).getLsbD 7 = false then .headerProbe
    else decodeShort cfg (le16 (byteAt bytes 5) (byteAt bytes 6))
  else decodeState cfg (StateFrame.ofBytes bytes)

/-- ENCODE.SHORT's bytes (R211). -/
def encodeShortBytes (cfg : Config) (c : ShortCommand) : List Byte :=
  withChecksum (FRAME_HDR ++ [(0x80 : Byte), loByte (cfg.shortCode c), hiByte (cfg.shortCode c)])

/-- The timer sentinel (R214): `no_time` or `time == 0` forces the three fields. `collapse` of R217. -/
def collapse (c : StateCommand) : StateCommand :=
  if c.noTime ∨ c.time = 0 then { c with onTime := TIME_SENTINEL, offTime := TIME_SENTINEL, time := 0 } else c

/-- ENCODE.STATE's bytes (R212 to R215): bits 15:12 of the timer fields are dropped (D13). -/
def encodeStateBytes (cfg : Config) (c : StateCommand) : List Byte :=
  let t := collapse c
  withChecksum (FRAME_HDR ++
    [ (0x00 : Byte),
      fieldAt (cfg.modeCode c.mode) 4 ||| 0x08 ||| boolAt c.offTimer 2 ||| boolAt c.onTimer 1 ||| boolAt c.power 0,
      fieldAt c.temperature 1,
      0x80,
      fieldAt (cfg.fanCode c.fan) 4 ||| fieldAt (cfg.swingCode c.swing) 0,
      0x00,
      t.onTime.extractLsb' 0 8,
      fieldAt (t.offTime.extractLsb' 0 4) 4 ||| fieldAt (t.onTime.extractLsb' 8 4) 0,
      t.offTime.extractLsb' 4 8,
      0x00,
      0x00,
      0x80 ||| boolAt c.noTime 0,
      loByte t.time,
      hiByte t.time ])

/-- ENCODE.SHORT (R211, R216). -/
def codecEncodeShort (cfg : Config) (c : ShortCommand) (capacity : Nat) : EncodeResult :=
  if capacity < LEN_SHORT then .err .bufferTooSmall else .ok (encodeShortBytes cfg c) LEN_SHORT

/-- ENCODE.STATE (R212, R216). -/
def codecEncodeState (cfg : Config) (c : StateCommand) (capacity : Nat) : EncodeResult :=
  if capacity < LEN_STATE then .err .bufferTooSmall else .ok (encodeStateBytes cfg c) LEN_STATE

/-- ENCODE dispatches on the variant (R210). -/
def codecEncode (cfg : Config) (c : Command) (capacity : Nat) : EncodeResult :=
  match c with
  | .short c => codecEncodeShort cfg c capacity
  | .state c => codecEncodeState cfg c capacity

/-- The codec's decode result as an output; no state is read or written (R180). -/
def outputDecoded (res : DecodeResult) (s : State) : Host.Outcome State Fault Refusal := .next (s.emit (.decoded res))

/-- DECODE (R180). With fewer bytes than `length` it is refused (U6, R189; log 13). -/
def execDecode (bytes : List Byte) (length : Nat) (s : State) : Host.Outcome State Fault Refusal :=
  if bytes.length < length then .refused .decodeOperandTooShort
  else outputDecoded (codecDecode s.cfg bytes length) s

/-- ENCODE.SHORT (R211). -/
def execEncodeShort (c : ShortCommand) (capacity : Nat) (s : State) : Host.Outcome State Fault Refusal :=
  .next (s.emit (.encoded (codecEncodeShort s.cfg c capacity)))

/-- ENCODE.STATE (R212). -/
def execEncodeState (c : StateCommand) (capacity : Nat) (s : State) : Host.Outcome State Fault Refusal :=
  .next (s.emit (.encoded (codecEncodeState s.cfg c capacity)))

/-- FRAME.HEADERPROBE (R184): "not a command"; bits 6:0 of byte 4, bytes 5 and 6 are not examined. Log 11. -/
def execFrameHeaderProbe (_ign : BitVec 7) (_byte5 _byte6 : Byte) (s : State) : Host.Outcome State Fault Refusal :=
  outputDecoded .headerProbe s

/-- FRAME.SHORT.EION (R185). -/
def execFrameShortEion (_ign : BitVec 7) (s : State) : Host.Outcome State Fault Refusal :=
  outputDecoded (.cmd (.short .eion)) s

/-- FRAME.SHORT.PATROL (R185). -/
def execFrameShortPatrol (_ign : BitVec 7) (s : State) : Host.Outcome State Fault Refusal :=
  outputDecoded (.cmd (.short .patrol)) s

/-- FRAME.SHORT.QUIET (R185). -/
def execFrameShortQuiet (_ign : BitVec 7) (s : State) : Host.Outcome State Fault Refusal :=
  outputDecoded (.cmd (.short .quiet)) s

/-- FRAME.SHORT.POWERFUL (R185). -/
def execFrameShortPowerful (_ign : BitVec 7) (s : State) : Host.Outcome State Fault Refusal :=
  outputDecoded (.cmd (.short .powerful)) s

/-- FRAME.SHORT.CHECK (R185). -/
def execFrameShortCheck (_ign : BitVec 7) (s : State) : Host.Outcome State Fault Refusal :=
  outputDecoded (.cmd (.short .check)) s

/-- FRAME.SHORT.SETAIR1 (R185). -/
def execFrameShortSetAir1 (_ign : BitVec 7) (s : State) : Host.Outcome State Fault Refusal :=
  outputDecoded (.cmd (.short .setAir1)) s

/-- FRAME.SHORT.SETAIR2 (R185). -/
def execFrameShortSetAir2 (_ign : BitVec 7) (s : State) : Host.Outcome State Fault Refusal :=
  outputDecoded (.cmd (.short .setAir2)) s

/-- FRAME.SHORT.SETAIR3 (R185). -/
def execFrameShortSetAir3 (_ign : BitVec 7) (s : State) : Host.Outcome State Fault Refusal :=
  outputDecoded (.cmd (.short .setAir3)) s

/-- FRAME.SHORT.ACRESET (R185). -/
def execFrameShortAcReset (_ign : BitVec 7) (s : State) : Host.Outcome State Fault Refusal :=
  outputDecoded (.cmd (.short .acReset)) s

/-- FRAME.SHORT.UNKNOWN (R185): "illegal encoding: DECODE returns Err(DecodeUnknownCommand)"; the error is taken, R319. -/
def execFrameShortUnknown (_ign : BitVec 7) (code : Half) (s : State) : Host.Outcome State Fault Refusal :=
  outputDecoded (decodeShort s.cfg code) s

/-- FRAME.STATE (R186). -/
def execFrameState (f : StateFrame) (s : State) : Host.Outcome State Fault Refusal :=
  outputDecoded (decodeState s.cfg f) s

end Sys2Proof.Machine
end

