-- ==== Sys2Proof/Machine/Pulse.lean ====
section
/-! DEFINITION. The Pulse Encoder (44_pulse_encoder.md): PULSE_ENCODE. -/

namespace Sys2Proof.Machine

/-- The header pair the encoder emits (R240, D20). -/
def headerPair (cfg : Config) : PulsePair := ⟨cfg.txHdrMark, cfg.txHdrSpace⟩

/-- `pair(0)` and `pair(1)` (R242). -/
def bitPair (cfg : Config) (b : Bool) : PulsePair := ⟨cfg.txBitMark, if b then cfg.txSpace1 else cfg.txSpace0⟩

/-- `bit_pairs(v)` (R242): least significant bit first. -/
def bitPairs (cfg : Config) (v : Byte) : PulseSeq := (List.range 8).map (fun k => bitPair cfg (v.getLsbD k))

/-- The terminating pair, "with zero space" (R241, D21). -/
def endPair (cfg : Config) : PulsePair := ⟨cfg.txEndMark, 0⟩

/-- PULSE_ENCODE's sequence: the five parts of R241, for any byte string (R240). -/
def pulseSeq (cfg : Config) (data : List Byte) : PulseSeq :=
  [headerPair cfg, headerPair cfg] ++ cfg.hdrRepeat.toList.flatMap (bitPairs cfg) ++
    [headerPair cfg, headerPair cfg] ++ data.flatMap (bitPairs cfg) ++ [endPair cfg]

/-- The duration of a transmission, the sum of all marks and spaces (R247, informative: no rule uses it). -/
def totalDuration (seq : PulseSeq) : Nat := seq.foldr (fun p n => p.mark + p.space + n) 0

/-- PULSE_ENCODE (R240). No state is read or written (R35). -/
def execPulseEncode (data : List Byte) (s : State) : Host.Outcome State Fault Refusal :=
  .next (s.emit (.pulses (pulseSeq s.cfg data)))

end Sys2Proof.Machine
end

