-- ==== Sys2Proof/Machine/Pipeline.lean ====
section
/-! DEFINITION. The receive and transmit compositions (45_pipelines.md): RX_PAIR, RX_GAP, TX_COMMAND. "They add no
behaviour of their own." -/

namespace Sys2Proof.Machine

/-- A `DecodeResult` as an `RxEvent` (R262). -/
def DecodeResult.toRx : DecodeResult → RxEvent
  | .cmd c => .cmd c
  | .headerProbe => .headerProbe
  | .err e => .err (.decode e)

/-- `deliver` (R262): every FrameComplete goes to DECODE, whatever its length (R160). -/
def deliver (cfg : Config) : AsmEvent → RxEvent
  | .none => .noEvent
  | .fail e => .err (.frame e)
  | .frameComplete n data => (codecDecode cfg data n).toRx

/-- One symbol through the assembler and delivery. -/
def rxSymbol (cfg : Config) (sym : Symbol) (a : FrameAssemblyState) : FrameAssemblyState × RxEvent :=
  ((asmStep cfg a sym).1, deliver cfg (asmStep cfg a sym).2)

/-- A receive step whose event is the operation's output. -/
def outputRx (p : FrameAssemblyState × RxEvent) : FrameAssemblyState × Output := (p.1, .rx p.2)

/-- RX_PAIR (R260): classified and consumed in the same step. -/
def execRxPair (r : Nat) (mark space : Nat) (s : State) : Host.Outcome State Fault Refusal :=
  onStream r (fun a => outputRx (rxSymbol s.cfg (classify mark space) a)) s

/-- RX_GAP (R261): an `End` symbol, with no pulse pair involved. -/
def execRxGap (r : Nat) (s : State) : Host.Outcome State Fault Refusal :=
  onStream r (fun a => outputRx (rxSymbol s.cfg .endFrame a)) s

/-- TX_COMMAND (R265): on an encode error no pulse sequence at all (D25, R361). -/
def transmit (cfg : Config) (c : Command) : TxResult :=
  match codecEncode cfg c cfg.txCapacity with
  | .err e => .err e
  | .ok data _ => .pulses (pulseSeq cfg data)

/-- TX_COMMAND (R265). -/
def execTxCommand (c : Command) (s : State) : Host.Outcome State Fault Refusal :=
  .next (s.emit (.tx (transmit s.cfg c)))

end Sys2Proof.Machine
end

