-- ==== Sys2Proof/Machine/Dispatch.lean ====
section
/-! DEFINITION. One arm per instruction, each one call of its meaning. -/

namespace Sys2Proof.Machine

def exec (i : Instr) (s : State) : Host.Outcome State Fault Refusal :=
  match i with
  | .symEnd mark => Sys2Proof.Machine.execSymEnd mark s
  | .symHeader mark space => Sys2Proof.Machine.execSymHeader mark space s
  | .symInvalid mark space => Sys2Proof.Machine.execSymInvalid mark space s
  | .symBit0 mark space => Sys2Proof.Machine.execSymBit0 mark space s
  | .symBit1 mark space => Sys2Proof.Machine.execSymBit1 mark space s
  | .frameHeaderProbe ign byte5 byte6 => Sys2Proof.Machine.execFrameHeaderProbe ign byte5 byte6 s
  | .frameShortEion ign => Sys2Proof.Machine.execFrameShortEion ign s
  | .frameShortPatrol ign => Sys2Proof.Machine.execFrameShortPatrol ign s
  | .frameShortQuiet ign => Sys2Proof.Machine.execFrameShortQuiet ign s
  | .frameShortPowerful ign => Sys2Proof.Machine.execFrameShortPowerful ign s
  | .frameShortCheck ign => Sys2Proof.Machine.execFrameShortCheck ign s
  | .frameShortSetAir1 ign => Sys2Proof.Machine.execFrameShortSetAir1 ign s
  | .frameShortSetAir2 ign => Sys2Proof.Machine.execFrameShortSetAir2 ign s
  | .frameShortSetAir3 ign => Sys2Proof.Machine.execFrameShortSetAir3 ign s
  | .frameShortAcReset ign => Sys2Proof.Machine.execFrameShortAcReset ign s
  | .frameShortUnknown ign code => Sys2Proof.Machine.execFrameShortUnknown ign code s
  | .frameState f => Sys2Proof.Machine.execFrameState f s
  | .classify mark space => Sys2Proof.Machine.execClassify mark space s
  | .asmHeader r => Sys2Proof.Machine.execAsmHeader r s
  | .asmInvalid r => Sys2Proof.Machine.execAsmInvalid r s
  | .asmEnd r => Sys2Proof.Machine.execAsmEnd r s
  | .asmBit0 r => Sys2Proof.Machine.execAsmBit0 r s
  | .asmBit1 r => Sys2Proof.Machine.execAsmBit1 r s
  | .decode bytes length => Sys2Proof.Machine.execDecode bytes length s
  | .encodeShort c capacity => Sys2Proof.Machine.execEncodeShort c capacity s
  | .encodeState c capacity => Sys2Proof.Machine.execEncodeState c capacity s
  | .pulseEncode data => Sys2Proof.Machine.execPulseEncode data s
  | .rxPair r mark space => Sys2Proof.Machine.execRxPair r mark space s
  | .rxGap r => Sys2Proof.Machine.execRxGap r s
  | .txCommand c => Sys2Proof.Machine.execTxCommand c s
  | .reset r => Sys2Proof.Machine.execReset r s

end Sys2Proof.Machine
end

