-- ==== Sys2Proof/Machine/Step.lean ====
section
/-! DEFINITION. One step of the machine: the oldest input the host has presented, decoded and executed whole (R8, R58,
R63). -/

namespace Sys2Proof.Machine

/-- One step. With no input presented the block waits (R324 "the block simply waits for the next input", R350). -/
def step (s : State) : Host.Outcome State Fault Refusal :=
  match s.inputs with
  | [] => .next s
  | w :: rest =>
    match decodeWord s.cfg w with
    | .ok i => exec i { s with inputs := rest }
    | .error e => takeReject e { s with inputs := rest }

/-- The host presents inputs after those already pending (R63, R293). -/
def State.present (s : State) (ws : List PortWord) : State := { s with inputs := s.inputs ++ ws }

/-- The table word as the very next input: a frame of `nbits / 8` bytes (R98, R111; log 1 and 2). -/
def State.withFetchWord (s : State) (nbits w : Nat) : State :=
  { s with inputs := .frame (bytesOfNat (nbits / 8) w) :: s.inputs }

end Sys2Proof.Machine
end

