-- ==== Sys2Proof/Machine/HostContract.lean ====
section
/-! DEFINITION. What the spec says of the host around the block (46_host_contract.md): the inputs its receive loop
presents and its duties towards the block, its use of events, and the Device State Engine, as functions beside the
machine. Nothing here is the block's state (R4, R38) and no instruction reaches it. Log 23. -/

namespace Sys2Proof.Machine

/-- R284: `current: Command`. -/
structure DeviceState where
  current : Command
  deriving DecidableEq, Repr

/-- R284: "initialized once at startup to a zeroed/default `Command`": a free value (U18; log 35). -/
def DeviceState.start : DeviceState := ⟨Config.startCommand⟩

/-- R290: the keys `mode`, `temperature`, `fan`, `swing` of the canonical text form. -/
structure Serialized where
  mode : String
  temperature : Nat
  fan : String
  swing : String
  deriving DecidableEq, Repr

/-- R34, R290. -/
def modeText : Mode → String
  | .auto => "auto"
  | .cool => "cool"
  | .dry => "dry"
  | .fan => "fan_only"
  | .heat => "heat"

/-- R34, R290; the pairing of `1..5` with the names is by position (R34, log 30). -/
def fanText : Fan → String
  | .auto => "auto"
  | .one => "min"
  | .two => "low"
  | .three => "medium"
  | .four => "high"
  | .five => "max"

/-- R34, R290; the pairing of `1..5` with the names is by position (R34, log 30). -/
def swingText : Swing → String
  | .auto => "auto"
  | .one => "forward"
  | .two => "high"
  | .three => "middle"
  | .four => "low"
  | .five => "down"

/-- `serialize_state` (R290): `mode` is the literal `off` when `power` is false. The source gives no text for a short
command (N11). -/
def serializeState : Command → Option Serialized
  | .short _ => none
  | .state c => some
      { mode := if c.power then modeText c.mode else "off"
        temperature := c.temperature.toNat
        fan := fanText c.fan
        swing := swingText c.swing }

/-- The side effects of one mutation, made under the lock (R285): the pulse sequence handed to the pulse sink and the
text handed to the publisher. -/
structure Cycle where
  transmitted : TxResult
  published : Option Serialized
  deriving DecidableEq, Repr

/-- The body every mutator ends with (R285): TX_COMMAND of the new `current`, then serialization and publishing. Where
TX_COMMAND answers an error there is no pulse sequence to transmit (R361); that `current` is then still the new command
and its text still published the spec does not say: DESIGN CHOICE, log 33. -/
def commit (cfg : Config) (c : Command) : DeviceState × Cycle :=
  (⟨c⟩, { transmitted := transmit cfg c, published := serializeState c })

/-- `replace_state(cmd)` (R286): overwrites `current` wholesale and does not force `no_time`. -/
def replaceState (cfg : Config) (_d : DeviceState) (c : Command) : DeviceState × Cycle := commit cfg c

/-- A point edit (R285): it forces `no_time = true`. Of a device whose `current` is a short command the source says
nothing (N11): no edit is made. -/
def pointEdit (cfg : Config) (d : DeviceState) (edit : StateCommand → StateCommand) : Option (DeviceState × Cycle) :=
  match d.current with
  | .short _ => none
  | .state c => some (commit cfg (.state { edit c with noTime := true }))

/-- The saturating clamp to `[0, 31]` (R287). -/
def clampTemperature (v : Int) : BitVec 5 := BitVec.ofNat 5 (min v.toNat 31)

/-- `set_temperature(value)` (R287). -/
def setTemperature (cfg : Config) (d : DeviceState) (v : Int) : Option (DeviceState × Cycle) :=
  pointEdit cfg d (fun c => { c with temperature := clampTemperature v })

/-- `set_mode(power, mode)` (R288). -/
def setMode (cfg : Config) (d : DeviceState) (power : Bool) (mode : Mode) : Option (DeviceState × Cycle) :=
  pointEdit cfg d (fun c => { c with power, mode })

/-- `set_power(on)` (R288). -/
def setPower (cfg : Config) (d : DeviceState) (on : Bool) : Option (DeviceState × Cycle) :=
  pointEdit cfg d (fun c => { c with power := on })

/-- `set_fan(fan)` (R288). -/
def setFan (cfg : Config) (d : DeviceState) (fan : Fan) : Option (DeviceState × Cycle) :=
  pointEdit cfg d (fun c => { c with fan })

/-- `set_swing(swing)` (R288). -/
def setSwing (cfg : Config) (d : DeviceState) (swing : Swing) : Option (DeviceState × Cycle) :=
  pointEdit cfg d (fun c => { c with swing })

/-- The mode a control-surface string names; an unknown string is rejected (R291). Which strings are known the spec does
not list: DESIGN CHOICE, exactly the serializer's texts of the members, so that "off" names no mode, log 32. -/
def modeOfText? (t : String) : Option Mode := Mode.all.find? (fun m => modeText m == t)

/-- The fan a control-surface string names (R291; the known strings are a DESIGN CHOICE, log 32). -/
def fanOfText? (t : String) : Option Fan := Fan.all.find? (fun m => fanText m == t)

/-- The swing a control-surface string names (R291; the known strings are a DESIGN CHOICE, log 32). -/
def swingOfText? (t : String) : Option Swing := Swing.all.find? (fun m => swingText m == t)

/-- R291's "out-of-range encode": a control-surface mutation whose encode errs is rejected, so the device is not mutated
and `none` is reported. That this is ENCODE's one error (R216, N22) is the model's reading: DEDUCED, log 34. -/
def rejectEncodeError (m : Option (DeviceState × Cycle)) : Option (DeviceState × Cycle) :=
  m.filter (fun p => match p.2.transmitted with | .pulses _ => true | .err _ => false)

/-- A control-surface command that names a mode: an unknown string or an encode error mutates nothing and the rejection,
`none`, is reported to its caller (R291). -/
def requestMode (cfg : Config) (d : DeviceState) (power : Bool) (t : String) : Option (DeviceState × Cycle) :=
  (modeOfText? t).bind (fun m => rejectEncodeError (setMode cfg d power m))

/-- A control-surface command that names a fan value (R291). -/
def requestFan (cfg : Config) (d : DeviceState) (t : String) : Option (DeviceState × Cycle) :=
  (fanOfText? t).bind (fun f => rejectEncodeError (setFan cfg d f))

/-- A control-surface command that names a swing value (R291). -/
def requestSwing (cfg : Config) (d : DeviceState) (t : String) : Option (DeviceState × Cycle) :=
  (swingOfText? t).bind (fun w => rejectEncodeError (setSwing cfg d w))

/-- A control-surface command that switches the power (R291). -/
def requestPower (cfg : Config) (d : DeviceState) (on : Bool) : Option (DeviceState × Cycle) :=
  rejectEncodeError (setPower cfg d on)

/-- A control-surface command that sets the temperature (R291); no value is rejected, it is clamped (R287). -/
def requestTemperature (cfg : Config) (d : DeviceState) (v : Int) : Option (DeviceState × Cycle) :=
  rejectEncodeError (setTemperature cfg d v)

/-- What the receive loop does with an event (R292): a `State` command replaces the device's state, an error, a
HeaderProbe and NoEvent change nothing and have no side effect (R332). What is done with a short command the source does
not say (N11): nothing here, log 23. -/
def onRxEvent (cfg : Config) (d : DeviceState) : RxEvent → DeviceState × Option Cycle
  | .cmd (.state c) => ((replaceState cfg d (.state c)).1, some (replaceState cfg d (.state c)).2)
  | .cmd (.short _) => (d, none)
  | .headerProbe => (d, none)
  | .err _ => (d, none)
  | .noEvent => (d, none)

/-- `decode_stream` (R264): the receive events among the outputs, in order, with the NoEvent results dropped. R264
speaks of one stream. With several receivers their events stand in one list, in the order the inputs were taken, and none
names its receiver: DESIGN CHOICE, log 31. -/
def decodeStream : List Output → List RxEvent
  | [] => []
  | .rx .noEvent :: rest => decodeStream rest
  | .rx ev :: rest => ev :: decodeStream rest
  | _ :: rest => decodeStream rest

/-! ### The receive loop's inputs and its duties -/

/-- What `receive_next` answers (R280): a sequence of pairs, or no data. -/
abbrev Wakeup := Option PulseSeq

/-- What the receive loop of stream `r` presents for one answer (R282, R283): the pairs in capture order, each once; for no
data, or "a zero-length wakeup with no new pulses", RX_GAP. -/
def wakeupInputs (r : Nat) : Wakeup → List PortWord
  | some (p :: ps) => (p :: ps).map (fun q => .rxPair r q.mark q.space)
  | some [] => [.rxGap r]
  | none => [.rxGap r]

/-- The receive loop of stream `r` over the answers of its pulse source (R282). -/
def receiveLoop (r : Nat) (ws : List Wakeup) : List PortWord := ws.flatMap (wakeupInputs r)

/-- A whole life of the host: the input it presents at each moment, or none. The moments count, they measure no time.
DESIGN CHOICE, log 36. -/
abbrev Schedule := Nat → Option PortWord

/-- The host gives stream `r` a pulse pair at moment `n`. -/
abbrev Schedule.pairAt (h : Schedule) (r n : Nat) : Prop := ∃ mark space, h n = some (.rxPair r mark space)

/-- R283, the host's duty: it issues RX_GAP eventually after the last pair of a burst; how long "eventually" is nothing
says. After every pair there comes, some time, another pair or RX_GAP. -/
abbrev Schedule.gapDuty (h : Schedule) (r : Nat) : Prop :=
  ∀ n, h.pairAt r n → ∃ m, n < m ∧ (h m = some (.rxGap r) ∨ h.pairAt r m)

/-- R293: the host is assumed never to withhold RX_GAP "for ever after a burst that did not end in a zero-space pair". -/
abbrev Schedule.gapNotWithheld (h : Schedule) (r : Nat) : Prop :=
  ∀ n mark space, h n = some (.rxPair r mark space) → space ≠ 0 →
    ∃ m, n < m ∧ (h m = some (.rxGap r) ∨ h.pairAt r m)

/-- The machine under a host, `n` moments: at each the host presents its input and the machine takes one step. -/
def hostRun (h : Schedule) : Nat → State → Host.Outcome State Fault Refusal
  | 0, s => .next s
  | n + 1, s =>
    match hostRun h n s with
    | .next t => step (t.present (h n).toList)
    | .fault f => .fault f
    | .refused x => .refused x

end Sys2Proof.Machine
end

