-- ==== Sys2Proof/Safety.lean ====
section
/-! DEFINITION. What counts as a good state, in the terms the statements use. -/

namespace Sys2Proof.Machine

/-- R27 (iii): not in a frame implies both counters 0. (R27 (i) and (ii) are carried by the types.) -/
abbrev FrameAssemblyState.idleCountersZero (a : FrameAssemblyState) : Prop :=
  a.inFrame = false → a.bitCount = 0 ∧ a.byteCount = 0

/-- Every stream's buffer is in its canonical form. -/
abbrev State.buffersCanonical (s : State) : Prop := ∀ a ∈ s.streams, a.buffer.wf = true

/-- R27 (iii) of every stream; it rests on D5, hence on the default `literalErrorRows = false`. -/
abbrev State.idleStreamsAreClear (s : State) : Prop :=
  s.cfg.literalErrorRows = false ∧ ∀ a ∈ s.streams, a.idleCountersZero

/-- R353: every stream is quiescent. -/
abbrev State.quiescent (s : State) : Prop := ∀ a ∈ s.streams, a.quiescent = true

/-- R36: two streams agree on all that an output can reveal: `in_frame`, the counters, the completed bytes and the bits
received of the current byte. -/
abbrev FrameAssemblyState.sameVisible (a b : FrameAssemblyState) : Prop :=
  a.inFrame = b.inFrame ∧ a.bitCount = b.bitCount ∧ a.byteCount = b.byteCount ∧
    (∀ k, k < a.byteCount.val → a.buffer.read k = b.buffer.read k) ∧
    (∀ k, k < a.bitCount.val → a.currentByte.getLsbD k = b.currentByte.getLsbD k)

/-- An event without the bytes a completed frame carries (R159: the assembler "never inspects byte content"). -/
def AsmEvent.shape : AsmEvent → AsmEvent
  | .none => .none
  | .frameComplete n _ => .frameComplete n []
  | .fail e => .fail e

/-- `sum8(b, n)` as R11 writes it, on numbers: `(b[0] + ... + b[n-1]) mod 256`. -/
def checksumOf (bytes : List Byte) (n : Nat) : Nat := ((bytes.take n).map BitVec.toNat).sum % 256

/-- Steps 1 to 3 of DECODE pass for the first `n` bytes (R181 to R183). -/
abbrev passesChecks (bytes : List Byte) (n : Nat) : Prop :=
  n ≤ bytes.length ∧ checksumOf bytes (n - 1) = (byteAt bytes (n - 1)).toNat ∧
    bytes.take 4 = [0x02, 0x20, 0xE0, 0x04]

/-- `BYTE(v)` of R102: the eight symbols of a byte, least significant bit first. -/
def byteSymbols (v : Byte) : List Symbol := (List.range 8).map (fun k => if v.getLsbD k then .bit1 else .bit0)

/-- `H BYTES(data) E` of R102: one frame as the assembler sees it. -/
def frameSymbols (data : List Byte) : List Symbol := [.header] ++ data.flatMap byteSymbols ++ [.endFrame]

/-- The operation that encodes a command (R210). -/
def encodeInstr (c : Command) (capacity : Nat) : Instr :=
  match c with
  | .short x => .encodeShort x capacity
  | .state x => .encodeState x capacity

/-- The operation of a data bit (R156, R157). -/
def bitInstr (r : Nat) (b : Bool) : Instr := if b then .asmBit1 r else .asmBit0 r

/-- `n` steps of the machine, stopping at the first stop. -/
def runSteps : Nat → State → Host.Outcome State Fault Refusal
  | 0, s => .next s
  | n + 1, s =>
    match step s with
    | .next t => runSteps n t
    | .fault f => .fault f
    | .refused x => .refused x

end Sys2Proof.Machine
end

