-- ==== Sys2Proof/Certificates/Slice0/Obligations.lean ====
section
/-! DEFINITION. The statements for the provers, from the spec's numbered rules. `s.emit o` is `s` with the output `o`
after its earlier outputs; `s.setStream r a` is `s` with the registers of stream `r` replaced: an equality of next states
states the frame as well. -/

open Sys2Proof Sys2Proof.Machine

/-! ## Pulse Classifier -/

/-- R130 to R134: CLASSIFY runs in every state, outputs the symbol of the first rule that holds, and changes no state. -/
def Obligations.ClassifyFollowsOrderedRules : Prop :=
  ∀ (s : State) (mark space : Nat), ∃ sym : Symbol,
    exec (.classify mark space) s = .next (s.emit (.symbol sym)) ∧
    (space = 0 → sym = .endFrame) ∧
    (space ≠ 0 → ((2700 < mark ∧ space < mark) ∨ (1600 < space ∧ mark < space)) → sym = .header) ∧
    (space ≠ 0 → ¬ ((2700 < mark ∧ space < mark) ∨ (1600 < space ∧ mark < space)) →
      (mark < 400 - 150 ∨ 400 + 150 < mark) → sym = .invalid) ∧
    (space ≠ 0 → ¬ ((2700 < mark ∧ space < mark) ∨ (1600 < space ∧ mark < space)) →
      400 - 150 ≤ mark → mark ≤ 400 + 150 → space < 2 * mark → sym = .bit0) ∧
    (space ≠ 0 → ¬ ((2700 < mark ∧ space < mark) ∨ (1600 < space ∧ mark < space)) →
      400 - 150 ≤ mark → mark ≤ 400 + 150 → 2 * mark ≤ space → sym = .bit1)

/-- The five regions of R81, which the spec derives from R131 to R134, are the classifier's verdicts, each exactly one
symbol. -/
def Obligations.RegionsAreTheClassifiersVerdicts : Prop :=
  ∀ (s : State) (mark space : Nat), ∃ sym : Symbol,
    exec (.classify mark space) s = .next (s.emit (.symbol sym)) ∧
    (sym = .endFrame ↔ space = 0) ∧
    (sym = .header ↔ 1 ≤ space ∧ ((2701 ≤ mark ∧ space < mark) ∨ (1601 ≤ space ∧ mark < space))) ∧
    (sym = .invalid ↔ 1 ≤ space ∧ ¬ ((2701 ≤ mark ∧ space < mark) ∨ (1601 ≤ space ∧ mark < space)) ∧
      (mark ≤ 249 ∨ 551 ≤ mark)) ∧
    (sym = .bit0 ↔ 1 ≤ space ∧ ¬ ((2701 ≤ mark ∧ space < mark) ∨ (1601 ≤ space ∧ mark < space)) ∧
      250 ≤ mark ∧ mark ≤ 550 ∧ space < 2 * mark) ∧
    (sym = .bit1 ↔ 1 ≤ space ∧ ¬ ((2701 ≤ mark ∧ space < mark) ∨ (1601 ≤ space ∧ mark < space)) ∧
      250 ≤ mark ∧ mark ≤ 550 ∧ 2 * mark ≤ space) ∧
    (sym = .bit1 → space ≤ 1600)

/-- A well-formed SYM row runs in every state and outputs its own symbol. That a SYM row's meaning is the classifier's
verdict is the model's reading of R111 (log 11). -/
def Obligations.SymbolRowsOutputTheirSymbol : Prop :=
  ∀ (s : State) (mark space : Nat),
    exec (.symEnd mark) s = .next (s.emit (.symbol .endFrame)) ∧
    ((Instr.symHeader mark space).wellFormed s.cfg = true →
      exec (.symHeader mark space) s = .next (s.emit (.symbol .header))) ∧
    ((Instr.symInvalid mark space).wellFormed s.cfg = true →
      exec (.symInvalid mark space) s = .next (s.emit (.symbol .invalid))) ∧
    ((Instr.symBit0 mark space).wellFormed s.cfg = true →
      exec (.symBit0 mark space) s = .next (s.emit (.symbol .bit0))) ∧
    ((Instr.symBit1 mark space).wellFormed s.cfg = true →
      exec (.symBit1 mark space) s = .next (s.emit (.symbol .bit1)))

/-- A pulse pair on the pair port decodes to the row whose region holds it, and the row's verdict is CLASSIFY's (log 2,
11). -/
def Obligations.PairRowsAgreeWithClassify : Prop :=
  ∀ (s : State) (mark space : Nat),
    ∃ i : Instr, decodeWord s.cfg (.pair mark space) = .ok i ∧ i.wellFormed s.cfg = true ∧
      encodeWord s.cfg i = .pair mark space ∧ exec i s = exec (.classify mark space) s

/-! ## Frame Assembler -/

/-- R151: ASM.HEADER, in any state of the stream. -/
def Obligations.AsmHeaderStartsAFrame : Prop :=
  ∀ (s : State) (r : Nat) (a : FrameAssemblyState), s.streams[r]? = some a →
    exec (.asmHeader r) s =
      .next ((s.setStream r { a with inFrame := true, bitCount := 0, byteCount := 0 }).emit (.asm .none))

/-- ASM.INVALID, in any state of the stream, as R152 reads it by the spec's own decision D5 (log 8). -/
def Obligations.AsmInvalidFailsAndIdles : Prop :=
  ∀ (s : State) (r : Nat) (a : FrameAssemblyState), s.cfg.literalErrorRows = false → s.streams[r]? = some a →
    exec (.asmInvalid r) s =
      .next ((s.setStream r { a with inFrame := false, bitCount := 0, byteCount := 0 }).emit (.asm (.fail .invalidSymbol)))

/-- R153: ASM.END, in any state of the stream: a copy of the completed bytes, or the incomplete-byte error. -/
def Obligations.AsmEndClosesTheFrame : Prop :=
  ∀ (s : State) (r : Nat) (a : FrameAssemblyState), s.streams[r]? = some a →
    (a.bitCount = 0 → ∃ data : List Byte, data.length = a.byteCount.val ∧
      (∀ k, k < a.byteCount.val → data[k]? = some (a.buffer.read k)) ∧
      exec (.asmEnd r) s =
        .next ((s.setStream r { a with inFrame := false, bitCount := 0, byteCount := 0 }).emit
          (.asm (.frameComplete a.byteCount.val data)))) ∧
    (a.bitCount ≠ 0 →
      exec (.asmEnd r) s =
        .next ((s.setStream r { a with inFrame := false, bitCount := 0, byteCount := 0 }).emit
          (.asm (.fail .incompleteByte))))

/-- R154 before the eighth bit: a data bit in a frame overwrites bit `bit_count` of the byte and nothing else, and only
counts. That the other bits stay is the spec's own decision D6 (log 9). -/
def Obligations.DataBitAccumulates : Prop :=
  ∀ (s : State) (r : Nat) (a : FrameAssemblyState) (b : Bool), s.streams[r]? = some a → a.inFrame = true →
    a.bitCount.val < 7 →
    ∃ v : Byte, (∀ j, j < 8 → v.getLsbD j = if j = a.bitCount.val then b else a.currentByte.getLsbD j) ∧
      exec (bitInstr r b) s =
        .next ((s.setStream r { a with currentByte := v, bitCount := a.bitCount + 1 }).emit (.asm .none))

/-- R154 at the eighth bit, with room in the buffer: the byte is stored at `byte_count`; every other byte of the buffer
reads as before (the byte by the spec's own decision D6, log 9). The buffer's canonical form is an invariant of the model (StepKeepsBuffersCanonical). -/
def Obligations.EighthBitStoresTheByte : Prop :=
  ∀ (s : State) (r : Nat) (a : FrameAssemblyState) (b : Bool), s.streams[r]? = some a → a.inFrame = true →
    a.bitCount = 7 → a.byteCount.val < 19 → a.buffer.wf = true →
    ∃ (v : Byte) (a' : FrameAssemblyState),
      (∀ j, j < 8 → v.getLsbD j = if j = 7 then b else a.currentByte.getLsbD j) ∧
      exec (bitInstr r b) s = .next ((s.setStream r a').emit (.asm .none)) ∧
      a'.inFrame = true ∧ a'.bitCount = 0 ∧ a'.byteCount.val = a.byteCount.val + 1 ∧ a'.currentByte = v ∧
      a'.buffer.read a.byteCount.val = v ∧ ∀ k, k ≠ a.byteCount.val → a'.buffer.read k = a.buffer.read k

/-- R154 at the eighth bit of a twentieth byte: it overflows, the stream idles and the buffer is kept, by the spec's own
decisions D5 (log 8) and D6 (log 9). -/
def Obligations.TwentiethByteOverflows : Prop :=
  ∀ (s : State) (r : Nat) (a : FrameAssemblyState) (b : Bool), s.cfg.literalErrorRows = false →
    s.streams[r]? = some a → a.inFrame = true → a.bitCount = 7 → a.byteCount = 19 →
    ∃ v : Byte, (∀ j, j < 8 → v.getLsbD j = if j = 7 then b else a.currentByte.getLsbD j) ∧
      exec (bitInstr r b) s =
        .next ((s.setStream r
            { inFrame := false, bitCount := 0, byteCount := 0, currentByte := v, buffer := a.buffer }).emit
          (.asm (.fail .overflow)))

/-- R155: a data bit outside a frame changes no register and reports nothing. -/
def Obligations.IdleDataBitIsIgnored : Prop :=
  ∀ (s : State) (r : Nat) (a : FrameAssemblyState) (b : Bool), s.streams[r]? = some a → a.inFrame = false →
    exec (bitInstr r b) s = .next (s.emit (.asm .none))

/-- The alternative reading of D5 that R7 offers as the parameter LITERAL_ERROR_ROWS: an Invalid symbol writes in_frame
alone, and so does an overflow beyond the data bit it consumes (log 8). -/
def Obligations.LiteralErrorRowsWriteInFrameAlone : Prop :=
  ∀ (s : State) (r : Nat) (a : FrameAssemblyState), s.cfg.literalErrorRows = true → s.streams[r]? = some a →
    exec (.asmInvalid r) s =
      .next ((s.setStream r { a with inFrame := false }).emit (.asm (.fail .invalidSymbol))) ∧
    (a.inFrame = true → a.bitCount = 7 → a.byteCount = 19 → ∀ b : Bool, ∃ v : Byte,
      (∀ j, j < 8 → v.getLsbD j = if j = 7 then b else a.currentByte.getLsbD j) ∧
      exec (bitInstr r b) s =
        .next ((s.setStream r { a with inFrame := false, bitCount := 0, currentByte := v }).emit (.asm (.fail .overflow))))

/-- R158, which the spec derives, under its decision D5 (log 8): only these events occur, one a step, and after every
event but None the stream is idle with both counters 0. -/
def Obligations.AssemblerEventsLeaveItIdle : Prop :=
  ∀ (s t : State) (r : Nat) (sym : Symbol), s.cfg.literalErrorRows = false →
    exec (decodeSymbol r sym) s = .next t →
    ∃ (ev : AsmEvent) (a : FrameAssemblyState), t.outputs = s.outputs ++ [.asm ev] ∧ t.streams[r]? = some a ∧
      (ev ≠ .none → a.inFrame = false ∧ a.bitCount = 0 ∧ a.byteCount = 0) ∧
      (sym = .header → ev = .none) ∧
      (sym = .invalid → ev = .fail .invalidSymbol) ∧
      (sym = .endFrame → (∃ n data, ev = .frameComplete n data) ∨ ev = .fail .incompleteByte) ∧
      (sym = .bit0 ∨ sym = .bit1 → ev = .none ∨ ev = .fail .overflow)

/-- What R159 infers: an assembler step's flag, counters and event do not depend on the byte content of its registers. -/
def Obligations.AssemblerIgnoresByteContent : Prop :=
  ∀ (s t t' : State) (r : Nat) (a : FrameAssemblyState) (v : Byte) (m : Memory) (sym : Symbol),
    s.streams[r]? = some a →
    exec (decodeSymbol r sym) s = .next t →
    exec (decodeSymbol r sym) (s.setStream r { a with currentByte := v, buffer := m }) = .next t' →
    ∃ (b b' : FrameAssemblyState) (ev ev' : AsmEvent), t.streams[r]? = some b ∧ t'.streams[r]? = some b' ∧
      b.inFrame = b'.inFrame ∧ b.bitCount = b'.bitCount ∧ b.byteCount = b'.byteCount ∧
      t.outputs = s.outputs ++ [.asm ev] ∧ t'.outputs = s.outputs ++ [.asm ev'] ∧ ev.shape = ev'.shape

/-- R36, which the spec derives: state that no output can reveal: streams that agree on what is visible give the same
outputs and agree again. The canonical form is an invariant of the model (StepKeepsBuffersCanonical). -/
def Obligations.HiddenStateIsNeverRevealed : Prop :=
  ∀ (s t t' : State) (r : Nat) (a b : FrameAssemblyState) (i : Instr),
    s.streams[r]? = some a → a.sameVisible b → a.buffer.wf = true → b.buffer.wf = true →
    ((∃ sym, i = decodeSymbol r sym) ∨ (∃ mark space, i = .rxPair r mark space) ∨ i = .rxGap r) →
    exec i s = .next t → exec i (s.setStream r b) = .next t' →
    t.outputs = t'.outputs ∧ ∃ c d, t.streams[r]? = some c ∧ t'.streams[r]? = some d ∧ c.sameVisible d

/-- The first half of R161, which the spec derives: from any state of the stream, `H BYTES(data) E` with at most 19 bytes
reports exactly the bytes, at the `E`, and leaves the stream idle. -/
def Obligations.FramedBytesAreReported : Prop :=
  ∀ (s : State) (r : Nat) (a : FrameAssemblyState) (data : List Byte) (rest : List PortWord),
    s.streams[r]? = some a → a.buffer.wf = true → data.length ≤ 19 →
    s.inputs = (frameSymbols data).map (PortWord.symbol r) ++ rest →
    ∃ (t : State) (b : FrameAssemblyState), runSteps (8 * data.length + 2) s = .next t ∧
      t.outputs = s.outputs ++ List.replicate (8 * data.length + 1) (.asm .none) ++
        [.asm (.frameComplete data.length data)] ∧
      t.streams = s.streams.set r b ∧ b.quiescent = true ∧ t.inputs = rest ∧ t.cfg = s.cfg ∧ t.freeCount = s.freeCount

/-- From R64 and R20: an operation on one stream leaves the other streams, the configuration, the pending inputs and the free-value
counter alone (RESET advances that counter). -/
def Obligations.StreamOperationsAreLocal : Prop :=
  ∀ (s t : State) (r : Nat) (i : Instr),
    ((∃ sym, i = decodeSymbol r sym) ∨ (∃ mark space, i = .rxPair r mark space) ∨ i = .rxGap r ∨ i = .reset r) →
    exec i s = .next t →
    (∀ q, q ≠ r → t.streams[q]? = s.streams[q]?) ∧ t.streams.length = s.streams.length ∧ t.cfg = s.cfg ∧
      t.inputs = s.inputs ∧ (i ≠ .reset r → t.freeCount = s.freeCount)

/-- From R64: assembler steps of different streams commute, and each gives the same output in either order. -/
def Obligations.StepsOfDifferentStreamsCommute : Prop :=
  ∀ (s t u t' u' : State) (q r : Nat) (sym sym' : Symbol), q ≠ r →
    exec (decodeSymbol q sym) s = .next t → exec (decodeSymbol r sym') t = .next u →
    exec (decodeSymbol r sym') s = .next t' → exec (decodeSymbol q sym) t' = .next u' →
    u.streams = u'.streams ∧ ∃ o o' : Output, u.outputs = s.outputs ++ [o, o'] ∧ u'.outputs = s.outputs ++ [o', o]

/-- From R20 and R59: CLASSIFY, DECODE, ENCODE.* and PULSE_ENCODE neither read nor write a stream's registers. -/
def Obligations.PureOperationsIgnoreTheStreams : Prop :=
  ∀ (s t : State) (i : Instr) (xs : List FrameAssemblyState),
    ((∃ mark space, i = .classify mark space) ∨ (∃ bytes n, i = .decode bytes n) ∨
      (∃ c n, i = encodeInstr c n) ∨ (∃ data, i = .pulseEncode data)) →
    exec i s = .next t →
    (∃ o, t = s.emit o) ∧ exec i { s with streams := xs } = .next { t with streams := xs }

/-! ## Frame Codec, decode -/

/-- R181 to R183: the first failing one of length, checksum and header is DECODE's result. -/
def Obligations.DecodeReportsTheFirstFailingCheck : Prop :=
  ∀ (s : State) (bytes : List Byte) (n : Nat), n ≤ bytes.length →
    (n ≠ 8 → n ≠ 19 → exec (.decode bytes n) s = .next (s.emit (.decoded (.err .invalidLength)))) ∧
    (n = 8 ∨ n = 19 → checksumOf bytes (n - 1) ≠ (byteAt bytes (n - 1)).toNat →
      exec (.decode bytes n) s = .next (s.emit (.decoded (.err .invalidChecksum)))) ∧
    (n = 8 ∨ n = 19 → checksumOf bytes (n - 1) = (byteAt bytes (n - 1)).toNat →
      bytes.take 4 ≠ [0x02, 0x20, 0xE0, 0x04] →
      exec (.decode bytes n) s = .next (s.emit (.decoded (.err .invalidHeader))))

/-- R184: an eight-byte frame with bit 7 of byte 4 clear is a HeaderProbe; bits 6:0 and bytes 5 and 6 do not matter. -/
def Obligations.DecodeRecognisesHeaderProbe : Prop :=
  ∀ (s : State) (bytes : List Byte), passesChecks bytes 8 → (byteAt bytes 4).getLsbD 7 = false →
    exec (.decode bytes 8) s = .next (s.emit (.decoded .headerProbe))

/-- R185: an eight-byte frame with bit 7 of byte 4 set is the command whose code it carries, else UnknownCommand. -/
def Obligations.DecodeMatchesTheShortCode : Prop :=
  ∀ (s : State) (bytes : List Byte), passesChecks bytes 8 → (byteAt bytes 4).getLsbD 7 = true →
    (s.cfg.codesInjective → ∀ c : ShortCommand,
      (byteAt bytes 5).toNat + 256 * (byteAt bytes 6).toNat = (s.cfg.shortCode c).toNat →
      exec (.decode bytes 8) s = .next (s.emit (.decoded (.cmd (.short c))))) ∧
    ((∀ c : ShortCommand, (byteAt bytes 5).toNat + 256 * (byteAt bytes 6).toNat ≠ (s.cfg.shortCode c).toNat) →
      exec (.decode bytes 8) s = .next (s.emit (.decoded (.err .unknownCommand))))

/-- R186, R190 and R191 on a nineteen-byte frame, with the spec's own decisions D9 (the order mode, swing, fan; log 17) and
D10 to D12, D14 (temperature unchecked, log 26; the timer fields and `no_time`, log 18): it is the State command of its
fields, or the first unknown one of mode, swing, fan is named. -/
def Obligations.DecodeExtractsTheStateFields : Prop :=
  ∀ (s : State) (bytes : List Byte), passesChecks bytes 19 →
    ((∀ m : Mode, s.cfg.modeCode m ≠ (byteAt bytes 5 >>> 4).setWidth 4) →
      exec (.decode bytes 19) s = .next (s.emit (.decoded (.err (.invalidField .mode))))) ∧
    (∀ m : Mode, s.cfg.modeCode m = (byteAt bytes 5 >>> 4).setWidth 4 →
      ((∀ w : Swing, s.cfg.swingCode w ≠ (byteAt bytes 8 &&& 0x0F).setWidth 4) →
        exec (.decode bytes 19) s = .next (s.emit (.decoded (.err (.invalidField .swing))))) ∧
      (∀ w : Swing, s.cfg.swingCode w = (byteAt bytes 8 &&& 0x0F).setWidth 4 →
        ((∀ f : Fan, s.cfg.fanCode f ≠ (byteAt bytes 8 >>> 4).setWidth 4) →
          exec (.decode bytes 19) s = .next (s.emit (.decoded (.err (.invalidField .fan))))) ∧
        (s.cfg.codesInjective → ∀ f : Fan, s.cfg.fanCode f = (byteAt bytes 8 >>> 4).setWidth 4 →
          exec (.decode bytes 19) s = .next (s.emit (.decoded (.cmd (.state
            { mode := m, swing := w, fan := f
              temperature := ((byteAt bytes 6 >>> 1) &&& 0x1F).setWidth 5
              power := (byteAt bytes 5).getLsbD 0
              onTimer := (byteAt bytes 5).getLsbD 1
              offTimer := (byteAt bytes 5).getLsbD 2
              onTime := (byteAt bytes 10).setWidth 16 ||| ((byteAt bytes 11 &&& 0x0F).setWidth 16 <<< 8)
              offTime := (byteAt bytes 11 >>> 4).setWidth 16 ||| ((byteAt bytes 12).setWidth 16 <<< 4)
              time := (byteAt bytes 16).setWidth 16 + 256 * (byteAt bytes 17).setWidth 16
              noTime := (byteAt bytes 15).getLsbD 0 })))))))

/-- R99, the spec's own decision D15 (log 19): frames that differ only in the ignored bits, with matching
checksums, decode alike. -/
def Obligations.DecodeIgnoresTheUnusedBits : Prop :=
  ∀ (s : State) (x y : List Byte),
    (passesChecks x 8 → passesChecks y 8 → byteAt x 4 &&& 0x80 = byteAt y 4 &&& 0x80 →
      ((byteAt x 4).getLsbD 7 = true → byteAt x 5 = byteAt y 5 ∧ byteAt x 6 = byteAt y 6) →
      exec (.decode x 8) s = exec (.decode y 8) s) ∧
    (passesChecks x 19 → passesChecks y 19 →
      byteAt x 5 &&& 0xF7 = byteAt y 5 &&& 0xF7 → byteAt x 6 &&& 0x3E = byteAt y 6 &&& 0x3E →
      byteAt x 8 = byteAt y 8 → byteAt x 10 = byteAt y 10 → byteAt x 11 = byteAt y 11 → byteAt x 12 = byteAt y 12 →
      byteAt x 15 &&& 0x01 = byteAt y 15 &&& 0x01 → byteAt x 16 = byteAt y 16 → byteAt x 17 = byteAt y 17 →
      exec (.decode x 19) s = exec (.decode y 19) s)

/-- From R189: DECODE reads only the first `length` bytes, and completes whenever they are present. -/
def Obligations.DecodeReadsOnlyItsLength : Prop :=
  ∀ (s : State) (bytes more : List Byte), ∃ res : DecodeResult,
    exec (.decode bytes bytes.length) s = .next (s.emit (.decoded res)) ∧
    exec (.decode (bytes ++ more) bytes.length) s = .next (s.emit (.decoded res))

/-- R192, which the spec derives: changing any single byte of a frame whose checksum holds makes DECODE fail with
InvalidChecksum. -/
def Obligations.SingleByteChangeFailsTheChecksum : Prop :=
  ∀ (s : State) (bytes : List Byte) (k : Nat) (v : Byte), bytes.length = 8 ∨ bytes.length = 19 →
    checksumOf bytes (bytes.length - 1) = (byteAt bytes (bytes.length - 1)).toNat →
    k < bytes.length → v ≠ byteAt bytes k →
    exec (.decode (bytes.set k v) bytes.length) s = .next (s.emit (.decoded (.err .invalidChecksum)))

/-- U6 of 93_implementation_defined.md: DECODE with fewer bytes than its length operand is refused, by name (log 13). -/
def Obligations.ShortDecodeOperandIsRefused : Prop :=
  ∀ (s : State) (bytes : List Byte) (n : Nat), bytes.length < n →
    exec (.decode bytes n) s = .refused .decodeOperandTooShort

/-- The frame rows run in every state and output the codec's result for the frame they stand for, and it is DECODE's
result for the frame's bytes: the model's reading of R111 (log 11). -/
def Obligations.FrameRowsAgreeWithDecode : Prop :=
  ∀ (s : State) (i : Instr) (bytes : List Byte), s.cfg.codesInjective → i.wellFormed s.cfg = true →
    encodeWord s.cfg i = .frame bytes →
    ∃ res : DecodeResult, exec i s = .next (s.emit (.decoded res)) ∧
      exec (.decode bytes bytes.length) s = .next (s.emit (.decoded res)) ∧
      (∀ ign b5 b6, i = .frameHeaderProbe ign b5 b6 → res = .headerProbe) ∧
      (∀ ign c, i = frameShortInstr ign c → res = .cmd (.short c)) ∧
      (∀ ign code, i = .frameShortUnknown ign code → res = .err .unknownCommand)

/-- FRAME.STATE outputs the State command of its fields, or names the first unknown one of mode, swing and fan (log 11; the
order is the spec's decision D9, log 17). -/
def Obligations.StateRowOutputsItsCommand : Prop :=
  ∀ (s : State) (f : StateFrame), ∃ res : DecodeResult, exec (.frameState f) s = .next (s.emit (.decoded res)) ∧
    ((∀ m, s.cfg.modeCode m ≠ f.modeCode) → res = .err (.invalidField .mode)) ∧
    ((∃ m, s.cfg.modeCode m = f.modeCode) → (∀ w, s.cfg.swingCode w ≠ f.swingCode) →
      res = .err (.invalidField .swing)) ∧
    ((∃ m, s.cfg.modeCode m = f.modeCode) → (∃ w, s.cfg.swingCode w = f.swingCode) →
      (∀ x, s.cfg.fanCode x ≠ f.fanCode) → res = .err (.invalidField .fan)) ∧
    (s.cfg.codesInjective → ∀ m w x, s.cfg.modeCode m = f.modeCode → s.cfg.swingCode w = f.swingCode →
      s.cfg.fanCode x = f.fanCode →
      res = .cmd (.state
        { mode := m, swing := w, fan := x, temperature := f.temperature, power := f.power, onTimer := f.onTimer
          offTimer := f.offTimer, onTime := f.onTime.setWidth 16, offTime := f.offTime.setWidth 16, time := f.time
          noTime := f.noTime }))

/-! ## Frame Codec, encode -/

/-- R211: ENCODE.SHORT's eight bytes, or BufferTooSmall. -/
def Obligations.EncodeShortBuildsTheFrame : Prop :=
  ∀ (s : State) (c : ShortCommand) (capacity : Nat),
    (capacity < 8 → exec (.encodeShort c capacity) s = .next (s.emit (.encoded (.err .bufferTooSmall)))) ∧
    (8 ≤ capacity → ∃ lo hi ck : Byte,
      lo.toNat = (s.cfg.shortCode c).toNat % 256 ∧ hi.toNat = (s.cfg.shortCode c).toNat / 256 ∧
      ck.toNat = (0x86 + lo.toNat + hi.toNat) % 256 ∧
      exec (.encodeShort c capacity) s =
        .next (s.emit (.encoded (.ok [0x02, 0x20, 0xE0, 0x04, 0x80, lo, hi, ck] 8))))

/-- ENCODE.STATE's nineteen bytes, with the timer sentinel, or BufferTooSmall: R212 with the spec's own decisions D11, D13
and D14 on the timer bytes (log 18). -/
def Obligations.EncodeStateBuildsTheFrame : Prop :=
  ∀ (s : State) (c : StateCommand) (capacity : Nat),
    (capacity < 19 → exec (.encodeState c capacity) s = .next (s.emit (.encoded (.err .bufferTooSmall)))) ∧
    (19 ≤ capacity → ∃ (on off t : Half) (data : List Byte),
      (c.noTime = true ∨ c.time = 0 → on = 0x600 ∧ off = 0x600 ∧ t = 0) ∧
      (c.noTime = false → c.time ≠ 0 → on = c.onTime ∧ off = c.offTime ∧ t = c.time) ∧
      data.take 18 =
        [ (0x02 : Byte), 0x20, 0xE0, 0x04, 0x00,
          ((s.cfg.modeCode c.mode).setWidth 8 <<< 4) ||| 0x08 ||| (if c.offTimer then 0x04 else 0x00) |||
            (if c.onTimer then 0x02 else 0x00) ||| (if c.power then 0x01 else 0x00),
          c.temperature.setWidth 8 <<< 1,
          0x80,
          ((s.cfg.fanCode c.fan).setWidth 8 <<< 4) ||| (s.cfg.swingCode c.swing).setWidth 8,
          0x00,
          on.setWidth 8,
          ((off &&& 0x00F).setWidth 8 <<< 4) ||| ((on >>> 8) &&& 0x00F).setWidth 8,
          (off >>> 4).setWidth 8,
          0x00, 0x00,
          0x80 ||| (if c.noTime then 0x01 else 0x00),
          t.setWidth 8,
          (t >>> 8).setWidth 8 ] ∧
      data.length = 19 ∧ (byteAt data 18).toNat = checksumOf data 18 ∧
      exec (.encodeState c capacity) s = .next (s.emit (.encoded (.ok data 19))))

/-- R217, which the spec derives: decoding an encoded State command gives it back with the timer fields collapsed, and reduced
modulo 4096 where they do not fit (log 18). -/
def Obligations.StateRoundTripCollapses : Prop :=
  ∀ (s : State) (c : StateCommand) (capacity : Nat), s.cfg.codesInjective → 19 ≤ capacity →
    ∃ data : List Byte, data.length = 19 ∧
      exec (.encodeState c capacity) s = .next (s.emit (.encoded (.ok data 19))) ∧
      (c.noTime = true ∨ c.time = 0 →
        exec (.decode data 19) s = .next (s.emit (.decoded (.cmd (.state
          { c with onTime := 0x600, offTime := 0x600, time := 0 }))))) ∧
      (c.noTime = false → c.time ≠ 0 → c.onTime.toNat ≤ 0xFFF → c.offTime.toNat ≤ 0xFFF →
        exec (.decode data 19) s = .next (s.emit (.decoded (.cmd (.state c))))) ∧
      (c.noTime = false → c.time ≠ 0 →
        exec (.decode data 19) s = .next (s.emit (.decoded (.cmd (.state
          { c with onTime := BitVec.ofNat 16 (c.onTime.toNat % 4096)
                   offTime := BitVec.ofNat 16 (c.offTime.toNat % 4096) })))))

/-- R218, which the spec derives: decoding an encoded short command gives it back. -/
def Obligations.ShortRoundTrip : Prop :=
  ∀ (s : State) (c : ShortCommand) (capacity : Nat), s.cfg.codesInjective → 8 ≤ capacity →
    ∃ data : List Byte, data.length = 8 ∧
      exec (.encodeShort c capacity) s = .next (s.emit (.encoded (.ok data 8))) ∧
      exec (.decode data 8) s = .next (s.emit (.decoded (.cmd (.short c))))

/-! ## Pulse Encoder and pipelines -/

/-- PULSE_ENCODE's sequence, place by place, as R240 to R242 give it with the spec's own decisions D19 to D21 (the same
header pair twice, the two bit pairs, the end pair; log 20). -/
def Obligations.PulseEncodeIndexMap : Prop :=
  ∀ (s : State) (data : List Byte), ∃ seq : PulseSeq,
    exec (.pulseEncode data) s = .next (s.emit (.pulses seq)) ∧
    seq.length = 69 + 8 * data.length ∧
    (∀ k, k = 0 ∨ k = 1 ∨ k = 66 ∨ k = 67 → seq[k]? = some ⟨s.cfg.txHdrMark, s.cfg.txHdrSpace⟩) ∧
    (∀ j k, j < 8 → k < 8 → seq[2 + 8 * j + k]? =
      some ⟨s.cfg.txBitMark,
        if (byteAt s.cfg.hdrRepeat.toList j).getLsbD k then s.cfg.txSpace1 else s.cfg.txSpace0⟩) ∧
    (∀ j k, j < data.length → k < 8 → seq[68 + 8 * j + k]? =
      some ⟨s.cfg.txBitMark, if (byteAt data j).getLsbD k then s.cfg.txSpace1 else s.cfg.txSpace0⟩) ∧
    seq[68 + 8 * data.length]? = some ⟨s.cfg.txEndMark, 0⟩

/-- From R243: the transmit durations, under the constraints it spells out, classify as what they stand for. -/
def Obligations.TransmitDurationsClassifyBack : Prop :=
  ∀ s : State, s.cfg.durationsValid →
    exec (.classify s.cfg.txHdrMark s.cfg.txHdrSpace) s = .next (s.emit (.symbol .header)) ∧
    exec (.classify s.cfg.txBitMark s.cfg.txSpace0) s = .next (s.emit (.symbol .bit0)) ∧
    exec (.classify s.cfg.txBitMark s.cfg.txSpace1) s = .next (s.emit (.symbol .bit1)) ∧
    exec (.classify s.cfg.txEndMark 0) s = .next (s.emit (.symbol .endFrame))

/-- R245, which the spec derives: a transmitted byte string of at most 19 bytes, classified and assembled, is reported whole and alone, from any
state of the stream. -/
def Obligations.TransmissionLoopsBack : Prop :=
  ∀ (s : State) (r : Nat) (a : FrameAssemblyState) (data : List Byte), s.cfg.durationsValid →
    s.streams[r]? = some a → a.buffer.wf = true → data.length ≤ 19 →
    ∃ seq : PulseSeq, exec (.pulseEncode data) s = .next (s.emit (.pulses seq)) ∧
      ∃ (t : State) (b : FrameAssemblyState),
        runSteps seq.length { s with inputs := seq.map (fun p => .symbol r (classify p.mark p.space)) } = .next t ∧
        t.outputs = s.outputs ++ List.replicate (seq.length - 1) (.asm .none) ++
          [.asm (.frameComplete data.length data)] ∧
        t.streams = s.streams.set r b ∧ b.quiescent = true

/-- R260, R262: RX_PAIR is CLASSIFY, the assembler's step for that symbol, and delivery, in one step. -/
def Obligations.RxPairComposes : Prop :=
  ∀ (s : State) (r mark space : Nat) (a : FrameAssemblyState), s.streams[r]? = some a →
    ∃ (sym : Symbol) (a' : FrameAssemblyState) (ev : AsmEvent) (rx : RxEvent),
      exec (.classify mark space) s = .next (s.emit (.symbol sym)) ∧
      exec (decodeSymbol r sym) s = .next ((s.setStream r a').emit (.asm ev)) ∧
      exec (.rxPair r mark space) s = .next ((s.setStream r a').emit (.rx rx)) ∧
      (ev = .none → rx = .noEvent) ∧ (∀ e, ev = .fail e → rx = .err (.frame e)) ∧
      (∀ n d, ev = .frameComplete n d → ∃ res, exec (.decode d n) s = .next (s.emit (.decoded res)) ∧
        (∀ c, res = .cmd c → rx = .cmd c) ∧ (res = .headerProbe → rx = .headerProbe) ∧
        (∀ e, res = .err e → rx = .err (.decode e)))

/-- R261, R262: RX_GAP is the assembler's End step and delivery. -/
def Obligations.RxGapIsAnEndSymbol : Prop :=
  ∀ (s : State) (r : Nat) (a : FrameAssemblyState), s.streams[r]? = some a →
    ∃ (a' : FrameAssemblyState) (ev : AsmEvent) (rx : RxEvent),
      exec (.asmEnd r) s = .next ((s.setStream r a').emit (.asm ev)) ∧
      exec (.rxGap r) s = .next ((s.setStream r a').emit (.rx rx)) ∧
      (∀ e, ev = .fail e → rx = .err (.frame e)) ∧
      (∀ n d, ev = .frameComplete n d → ∃ res, exec (.decode d n) s = .next (s.emit (.decoded res)) ∧
        (∀ c, res = .cmd c → rx = .cmd c) ∧ (res = .headerProbe → rx = .headerProbe) ∧
        (∀ e, res = .err e → rx = .err (.decode e)))

/-- From R358: an idle gap of a quiescent stream reports InvalidLength and leaves the stream as it was (the
spec's decision D7, log 10). -/
def Obligations.IdleGapReportsInvalidLength : Prop :=
  ∀ (s : State) (r : Nat) (a : FrameAssemblyState), s.streams[r]? = some a → a.quiescent = true →
    exec (.rxGap r) s = .next (s.emit (.rx (.err (.decode .invalidLength))))

/-- From R263, which the spec derives: which pulse pair an event can come from. -/
def Obligations.EventsComeFromTheirSymbols : Prop :=
  ∀ (s t : State) (r mark space : Nat), exec (.rxPair r mark space) s = .next t →
    ∃ (sym : Symbol) (rx : RxEvent), exec (.classify mark space) s = .next (s.emit (.symbol sym)) ∧
      t.outputs = s.outputs ++ [.rx rx] ∧
      (∀ c, rx = .cmd c → sym = .endFrame) ∧ (rx = .headerProbe → sym = .endFrame) ∧
      (∀ e, rx = .err (.decode e) → sym = .endFrame) ∧
      (rx = .err (.frame .invalidSymbol) → sym = .invalid) ∧
      (rx = .err (.frame .overflow) → sym = .bit0 ∨ sym = .bit1) ∧
      (rx = .err (.frame .incompleteByte) → sym = .endFrame) ∧
      (sym = .header → rx = .noEvent)

/-- With the transmit buffer of 19 bytes, the spec's own decision D24 (log 21), TX_COMMAND is ENCODE and then PULSE_ENCODE of
its bytes, and never fails. -/
def Obligations.TxCommandSendsTheEncodedFrame : Prop :=
  ∀ (s : State) (c : Command), s.cfg.txCapacity = 19 →
    ∃ (data : List Byte) (seq : PulseSeq),
      exec (encodeInstr c 19) s = .next (s.emit (.encoded (.ok data data.length))) ∧
      exec (.pulseEncode data) s = .next (s.emit (.pulses seq)) ∧
      exec (.txCommand c) s = .next (s.emit (.tx (.pulses seq)))

/-- From R361 and D25: where ENCODE fails for the transmit buffer, TX_COMMAND outputs the error and no pulse sequence. That the
capacity can be another than 19 is the parameter R7 offers (log 21). -/
def Obligations.EncodeErrorBlocksTheTransmission : Prop :=
  ∀ (s : State) (c : Command) (e : EncodeError),
    exec (encodeInstr c s.cfg.txCapacity) s = .next (s.emit (.encoded (.err e))) →
    exec (.txCommand c) s = .next (s.emit (.tx (.err e)))

/-- R266, which the spec derives: a transmitted command, received pair by pair from any state of the stream, gives NoEvent for every pair but the
last and the command, with its timer fields collapsed, for the last. -/
def Obligations.TransmittedCommandIsReceived : Prop :=
  ∀ (s : State) (r : Nat) (a : FrameAssemblyState) (c : Command), s.cfg.valid → s.cfg.txCapacity = 19 →
    s.streams[r]? = some a → a.buffer.wf = true →
    (∀ x, c = .state x → x.onTime.toNat ≤ 0xFFF ∧ x.offTime.toNat ≤ 0xFFF) →
    ∃ (seq : PulseSeq) (c' : Command) (t : State),
      exec (.txCommand c) s = .next (s.emit (.tx (.pulses seq))) ∧
      runSteps seq.length { s with inputs := seq.map (fun p => .rxPair r p.mark p.space) } = .next t ∧
      t.outputs = s.outputs ++ List.replicate (seq.length - 1) (.rx .noEvent) ++ [.rx (.cmd c')] ∧
      (∀ x, c = .short x → c' = .short x) ∧
      (∀ x, c = .state x → x.noTime = true ∨ x.time = 0 →
        c' = .state { x with onTime := 0x600, offTime := 0x600, time := 0 }) ∧
      (∀ x, c = .state x → x.noTime = false → x.time ≠ 0 → c' = .state x)

/-! ## Reset -/

/-- R350, the spec's own decision D4 (log 7), and R351: RESET leaves the stream's registers at their reset values and the other streams and the configuration
alone, and emits nothing. (The buffer's contents are a free value and are not stated.) -/
def Obligations.ResetIdlesOneStream : Prop :=
  ∀ (s : State) (r : Nat) (a : FrameAssemblyState), s.streams[r]? = some a →
    ∃ (t : State) (b : FrameAssemblyState), exec (.reset r) s = .next t ∧ t.streams = s.streams.set r b ∧
      b.inFrame = false ∧ b.bitCount = 0 ∧ b.byteCount = 0 ∧ b.currentByte = 0x00 ∧
      t.outputs = s.outputs ∧ t.cfg = s.cfg ∧ t.inputs = s.inputs

/-- From R350: what RESET leaves is, to every output, what an End symbol or (by D5) an Invalid symbol leaves. -/
def Obligations.ResetLooksLikeEndOrInvalid : Prop :=
  ∀ (s t u v : State) (r : Nat), s.cfg.literalErrorRows = false →
    exec (.reset r) s = .next t → exec (.asmEnd r) s = .next u → exec (.asmInvalid r) s = .next v →
    ∃ a b c, t.streams[r]? = some a ∧ u.streams[r]? = some b ∧ v.streams[r]? = some c ∧
      a.sameVisible b ∧ a.sameVisible c

/-- The registers after reset, the spec's own decision D4 (R37, log 7). One receiver, no input and no output are the model's choices (log 1, 14, 22). -/
def Obligations.ResetStateRegisters : Prop :=
  ∃ a : FrameAssemblyState, State.reset.streams = [a] ∧ a.inFrame = false ∧ a.bitCount = 0 ∧ a.byteCount = 0 ∧
    a.currentByte = 0x00 ∧ State.reset.inputs = [] ∧ State.reset.outputs = []

/-! ## Invariants of every step -/

/-- Every step keeps every stream's buffer in its canonical form (the model's, log 5), within the 19 addresses of R50. -/
def Obligations.StepKeepsBuffersCanonical : Prop :=
  ∀ s t : State, s.buffersCanonical → step s = .next t → t.buffersCanonical

/-- The reset state's buffers are canonical (log 5). -/
def Obligations.ResetBuffersCanonical : Prop := State.reset.buffersCanonical

/-- R27 (iii), which the spec derives: every step keeps the counters of an idle stream at 0 (it rests on D5, log 8). -/
def Obligations.StepKeepsIdleStreamsClear : Prop :=
  ∀ s t : State, s.idleStreamsAreClear → step s = .next t → t.idleStreamsAreClear

/-- R27 (iii) holds of the reset state. -/
def Obligations.ResetStreamsAreClear : Prop := State.reset.idleStreamsAreClear

/-- From R8, R30, R63 and R67, for the model's queue of inputs (log 1, 22, 25): a step waits, or consumes the oldest input and hands back at most one output after the earlier
ones; it never changes the configuration or the number of streams. -/
def Obligations.StepConsumesOneInputInOrder : Prop :=
  ∀ s t : State, step s = .next t →
    t.cfg = s.cfg ∧ t.streams.length = s.streams.length ∧
    ((s.inputs = [] ∧ t = s) ∨
      ∃ w, s.inputs = w :: t.inputs ∧ (t.outputs = s.outputs ∨ ∃ o, t.outputs = s.outputs ++ [o]))

/-- A step runs the decoded instruction: exec of it on the state without that input (the model's queue of inputs, log 1). -/
def Obligations.StepRunsTheDecodedInstruction : Prop :=
  ∀ (s : State) (w : PortWord) (rest : List PortWord) (i : Instr), s.inputs = w :: rest →
    decodeWord s.cfg w = .ok i → step s = exec i { s with inputs := rest }

/-- A byte string on the frame port gives DECODE's result for it, frame row or not (R100, log 12). -/
def Obligations.FramePortGivesDecodeResult : Prop :=
  ∀ (s : State) (bytes : List Byte) (rest : List PortWord), s.inputs = .frame bytes :: rest →
    ∃ res : DecodeResult, step s = .next (({ s with inputs := rest } : State).emit (.decoded res)) ∧
      exec (.decode bytes bytes.length) { s with inputs := rest } =
        .next (({ s with inputs := rest } : State).emit (.decoded res))

/-- An operation that names a receiver the system does not have stops as a fault, by name (log 14). -/
def Obligations.UnknownReceiverFaults : Prop :=
  ∀ (s : State) (r : Nat) (i : Instr), s.streams[r]? = none →
    ((∃ sym, i = decodeSymbol r sym) ∨ (∃ mark space, i = .rxPair r mark space) ∨ i = .rxGap r ∨ i = .reset r) →
    exec i s = .fault (.noSuchReceiver r)

/-! ## Encoding -/

/-- Decoding the encoded word of a well-formed instruction gives it back, for every instruction and operand. -/
def Obligations.DecodeOfEncodeIsIdentity : Prop :=
  ∀ (cfg : Config) (i : Instr), cfg.codesInjective → i.wellFormed cfg = true →
    decodeWord cfg (encodeWord cfg i) = .ok i

/-- A word that decodes is the encoded word of a well-formed instruction: no bit of a word is dropped. -/
def Obligations.EncodeOfDecodeIsIdentity : Prop :=
  ∀ (cfg : Config) (w : PortWord) (i : Instr), decodeWord cfg w = .ok i →
    i.wellFormed cfg = true ∧ encodeWord cfg i = w

/-- Words written out from the spec's encodings (V-DE1, V-DE3, V-DE2, V-CL5, V-CL15) decode to their rows, or are no row. -/
def Obligations.WrittenOutWordsDecode : Prop :=
  decodeWord Config.reference (.frame [0x02, 0x20, 0xE0, 0x04, 0x80, 0x61, 0x33, 0x1A]) = .ok (.frameShortEion 0) ∧
  decodeWord Config.reference (.frame [0x02, 0x20, 0xE0, 0x04, 0x00, 0x00, 0x00, 0x06]) = .ok (.frameHeaderProbe 0 0 0) ∧
  decodeWord Config.reference (.frame [0x02, 0x20, 0xE0, 0x04, 0x80, 0x61, 0x33, 0x00]) =
    .error (.frame .invalidChecksum) ∧
  decodeWord Config.reference (.pair 3200 1600) = .ok (.symHeader 3200 1600) ∧
  decodeWord Config.reference (.pair 400 1600) = .ok (.symBit1 400 1600)

/-! ## The host contract -/

/-- From R287 and R285: set_temperature clamps to 0..31, forces no_time, and gives the new state to TX_COMMAND and to
publishing. It holds for every configuration: that the new command is kept and published also where TX_COMMAND errs
(txCapacity below 19, nothing is transmitted) is the model's choice, log 33. The device's current command is a State: of
a short one the spec says nothing (log 23). -/
def Obligations.SetTemperatureClampsAndTransmits : Prop :=
  ∀ (s : State) (d : DeviceState) (c : StateCommand) (v : Int), d.current = .state c →
    ∃ (d' : DeviceState) (cycle : Cycle) (x : BitVec 5), setTemperature s.cfg d v = some (d', cycle) ∧
      d'.current = .state { c with temperature := x, noTime := true } ∧
      (x.toNat : Int) = max 0 (min v 31) ∧
      exec (.txCommand d'.current) s = .next (s.emit (.tx cycle.transmitted)) ∧
      cycle.published = serializeState d'.current

/-- From R286: a decoded State command replaces the device's state wholesale, `no_time` as given, and is given to TX_COMMAND
and to publishing. It holds for every configuration: that it is kept and published also where TX_COMMAND errs (txCapacity
below 19, nothing is transmitted) is the model's choice, log 33. -/
def Obligations.DecodedStateReplacesTheDevice : Prop :=
  ∀ (s : State) (d : DeviceState) (c : StateCommand), ∃ cycle : Cycle,
    onRxEvent s.cfg d (.cmd (.state c)) = (⟨.state c⟩, some cycle) ∧
    exec (.txCommand (.state c)) s = .next (s.emit (.tx cycle.transmitted)) ∧
    cycle.published = serializeState (.state c)

/-- R332: a receive error changes no device state and has no side effect. -/
def Obligations.RejectedFrameHasNoSideEffects : Prop :=
  ∀ (cfg : Config) (d : DeviceState) (e : RxError), onRxEvent cfg d (.err e) = (d, none)
end

