-- ==== Sys2Proof/Laws/Memory.lean ====
section
/-! SUPPORT. The laws of the buffer: every operation keeps the canonical form; a read after a write; everything else
reads as before. -/

namespace Sys2Proof.Machine

theorem wfFrom_mono {lo lo' : Nat} {m : Memory} (h : lo' ≤ lo) (hm : Memory.wfFrom lo m = true) :
    Memory.wfFrom lo' m = true := by
  cases m with
  | nil => rfl
  | cons c rest =>
    obtain ⟨k, v⟩ := c
    simp only [Memory.wfFrom, Bool.and_eq_true, decide_eq_true_eq] at hm ⊢
    exact ⟨⟨⟨by omega, hm.1.1.2⟩, hm.1.2⟩, hm.2⟩

/-- An address below every listed one reads as unlisted. -/
theorem read_below {lo a : Nat} {m : Memory} (hm : Memory.wfFrom lo m = true) (h : a < lo) :
    m.read a = Memory.unlisted := by
  induction m generalizing lo with
  | nil => rfl
  | cons c rest ih =>
    obtain ⟨k, v⟩ := c
    simp only [Memory.wfFrom, Bool.and_eq_true, decide_eq_true_eq] at hm
    simp only [Memory.read]
    rw [if_neg (by omega)]
    exact ih hm.2 (by omega)

theorem wfFrom_write {lo a : Nat} {m : Memory} (v : Byte) (hm : Memory.wfFrom lo m = true) (hlo : lo ≤ a)
    (ha : a < CAPACITY) : Memory.wfFrom lo (m.write a v) = true := by
  induction m generalizing lo with
  | nil =>
    simp only [Memory.write]
    split
    · rfl
    · simp_all [Memory.wfFrom]
  | cons c rest ih =>
    obtain ⟨k, w⟩ := c
    have hm' := hm
    simp only [Memory.wfFrom, Bool.and_eq_true, decide_eq_true_eq] at hm
    obtain ⟨⟨⟨h1, h2⟩, h3⟩, h4⟩ := hm
    simp only [Memory.write]
    split
    · rename_i hk
      split
      · exact hm'
      · rename_i hv
        simp only [Memory.wfFrom, Bool.and_eq_true, decide_eq_true_eq]
        exact ⟨⟨⟨hlo, ha⟩, hv⟩, ⟨⟨by omega, h2⟩, h3⟩, h4⟩
    · split
      · rename_i hk hak
        subst hak
        split
        · exact wfFrom_mono (by omega) h4
        · rename_i hv
          simp only [Memory.wfFrom, Bool.and_eq_true, decide_eq_true_eq]
          exact ⟨⟨⟨hlo, ha⟩, hv⟩, h4⟩
      · rename_i hk hak
        simp only [Memory.wfFrom, Bool.and_eq_true, decide_eq_true_eq]
        exact ⟨⟨⟨h1, h2⟩, h3⟩, ih h4 (by omega)⟩

/-- A write keeps the canonical form. -/
theorem wf_write {m : Memory} {a : Nat} (v : Byte) (hm : m.wf = true) (ha : a < CAPACITY) : (m.write a v).wf = true :=
  wfFrom_write v hm (Nat.zero_le a) ha

/-- A read of the address written gives the value written. -/
theorem read_write_same {lo : Nat} {m : Memory} (a : Nat) (v : Byte) (hm : Memory.wfFrom lo m = true) :
    (m.write a v).read a = v := by
  induction m generalizing lo with
  | nil =>
    simp only [Memory.write]
    split
    · rename_i h; simp [Memory.read, h]
    · simp [Memory.read]
  | cons c rest ih =>
    obtain ⟨k, w⟩ := c
    simp only [Memory.wfFrom, Bool.and_eq_true, decide_eq_true_eq] at hm
    obtain ⟨⟨⟨h1, h2⟩, h3⟩, h4⟩ := hm
    simp only [Memory.write]
    split
    · rename_i hk
      split
      · rename_i hv
        rw [hv]
        simp only [Memory.read]
        rw [if_neg (by omega)]
        exact read_below h4 (by omega)
      · simp [Memory.read]
    · split
      · rename_i hk hak
        subst hak
        split
        · rename_i hv
          rw [hv]; exact read_below h4 (by omega)
        · simp [Memory.read]
      · rename_i hk hak
        simp only [Memory.read]
        rw [if_neg (by omega)]
        exact ih h4

/-- A write leaves every other address alone. -/
theorem read_write_other {m : Memory} {a b : Nat} (v : Byte) (h : b ≠ a) : (m.write a v).read b = m.read b := by
  induction m with
  | nil =>
    simp only [Memory.write]
    split
    · rfl
    · simp [Memory.read, Ne.symm h]
  | cons c rest ih =>
    obtain ⟨k, w⟩ := c
    simp only [Memory.write]
    split
    · split
      · rfl
      · simp [Memory.read, Ne.symm h]
    · split
      · rename_i hk hak
        subst hak
        split <;> simp [Memory.read, Ne.symm h]
      · simp only [Memory.read]
        split
        · rfl
        · exact ih

@[simp] theorem slice_length (m : Memory) (n : Nat) : (m.slice n).length = n := by simp [Memory.slice]

theorem slice_getElem (m : Memory) (n i : Nat) (h : i < (m.slice n).length) : (m.slice n)[i] = m.read i := by
  simp [Memory.slice]

theorem slice_succ (m : Memory) (n : Nat) : m.slice (n + 1) = m.slice n ++ [m.read n] := by
  simp [Memory.slice, List.range_succ]

/-- A slice below the address written reads as before. -/
theorem slice_write (m : Memory) (n : Nat) (v : Byte) : (m.write n v).slice n = m.slice n := by
  simp only [Memory.slice]
  refine List.map_congr_left fun i hi => ?_
  exact read_write_other v (by have := List.mem_range.mp hi; omega)

theorem wf_foldl_write (f : Nat → Byte) (l : List Nat) (m : Memory) (hm : m.wf = true) (hl : ∀ i ∈ l, i < CAPACITY) :
    (l.foldl (fun m i => m.write i (f i)) m).wf = true := by
  induction l generalizing m with
  | nil => exact hm
  | cons i rest ih =>
    exact ih _ (wf_write _ hm (hl i (by simp))) fun j hj => hl j (by simp [hj])

/-- The buffer RESET leaves is canonical, whatever its bytes are. -/
theorem wf_fill (f : Nat → Byte) : (Memory.fill f).wf = true :=
  wf_foldl_write f _ _ rfl fun _ hi => List.mem_range.mp hi

end Sys2Proof.Machine
end

