-- ==== Sys2Proof/Laws/State.lean ====
section
/-! SUPPORT. One lemma per field per update of the state and of a stream's registers. -/

namespace Sys2Proof.Machine

@[simp] theorem emit_cfg (s : State) (o : Output) : (s.emit o).cfg = s.cfg := rfl
@[simp] theorem emit_streams (s : State) (o : Output) : (s.emit o).streams = s.streams := rfl
@[simp] theorem emit_inputs (s : State) (o : Output) : (s.emit o).inputs = s.inputs := rfl
@[simp] theorem emit_outputs (s : State) (o : Output) : (s.emit o).outputs = s.outputs ++ [o] := rfl
@[simp] theorem emit_freeCount (s : State) (o : Output) : (s.emit o).freeCount = s.freeCount := rfl

@[simp] theorem setStream_cfg (s : State) (r : Nat) (a : FrameAssemblyState) : (s.setStream r a).cfg = s.cfg := rfl
@[simp] theorem setStream_streams (s : State) (r : Nat) (a : FrameAssemblyState) :
    (s.setStream r a).streams = s.streams.set r a := rfl
@[simp] theorem setStream_inputs (s : State) (r : Nat) (a : FrameAssemblyState) : (s.setStream r a).inputs = s.inputs := rfl
@[simp] theorem setStream_outputs (s : State) (r : Nat) (a : FrameAssemblyState) :
    (s.setStream r a).outputs = s.outputs := rfl
@[simp] theorem setStream_freeCount (s : State) (r : Nat) (a : FrameAssemblyState) :
    (s.setStream r a).freeCount = s.freeCount := rfl

theorem setStream_self {s : State} {r : Nat} {a : FrameAssemblyState} (h : s.streams[r]? = some a) :
    s.setStream r a = s := by
  obtain ⟨hr, ha⟩ := List.getElem?_eq_some_iff.mp h
  simp [State.setStream, ← ha]

@[simp] theorem toIdle_inFrame (a : FrameAssemblyState) : a.toIdle.inFrame = false := rfl
@[simp] theorem toIdle_bitCount (a : FrameAssemblyState) : a.toIdle.bitCount = 0 := rfl
@[simp] theorem toIdle_byteCount (a : FrameAssemblyState) : a.toIdle.byteCount = 0 := rfl
@[simp] theorem toIdle_currentByte (a : FrameAssemblyState) : a.toIdle.currentByte = a.currentByte := rfl
@[simp] theorem toIdle_buffer (a : FrameAssemblyState) : a.toIdle.buffer = a.buffer := rfl

@[simp] theorem startFrame_inFrame (a : FrameAssemblyState) : a.startFrame.inFrame = true := rfl
@[simp] theorem startFrame_bitCount (a : FrameAssemblyState) : a.startFrame.bitCount = 0 := rfl
@[simp] theorem startFrame_byteCount (a : FrameAssemblyState) : a.startFrame.byteCount = 0 := rfl
@[simp] theorem startFrame_currentByte (a : FrameAssemblyState) : a.startFrame.currentByte = a.currentByte := rfl
@[simp] theorem startFrame_buffer (a : FrameAssemblyState) : a.startFrame.buffer = a.buffer := rfl

@[simp] theorem raise_event (cfg : Config) (a : FrameAssemblyState) (e : FrameError) : (a.raise cfg e).2 = .fail e := rfl
@[simp] theorem raise_inFrame (cfg : Config) (a : FrameAssemblyState) (e : FrameError) :
    (a.raise cfg e).1.inFrame = false := by
  unfold FrameAssemblyState.raise; split <;> rfl
@[simp] theorem raise_currentByte (cfg : Config) (a : FrameAssemblyState) (e : FrameError) :
    (a.raise cfg e).1.currentByte = a.currentByte := by
  unfold FrameAssemblyState.raise; split <;> rfl
@[simp] theorem raise_buffer (cfg : Config) (a : FrameAssemblyState) (e : FrameError) :
    (a.raise cfg e).1.buffer = a.buffer := by
  unfold FrameAssemblyState.raise; split <;> rfl

/-- The default reading of the error rows (D5): raising a frame error leaves the idle state. -/
theorem raise_default {cfg : Config} (h : cfg.literalErrorRows = false) (a : FrameAssemblyState) (e : FrameError) :
    a.raise cfg e = (a.toIdle, .fail e) := by
  simp [FrameAssemblyState.raise, h]

end Sys2Proof.Machine
end

