-- ==== Sys2Proof/Laws/Assembler.lean ====
section
/-! SUPPORT. What the assembler's steps do, one lemma per case. -/

namespace Sys2Proof.Machine

/-- Bit `k` becomes `b`, "other 7 bits unchanged" (R24). -/
theorem setBit_getLsbD (v : Byte) (b : Bool) {k j : Nat} (hk : k < 8) (hj : j < 8) :
    (setBit v k b).getLsbD j = if j = k then b else v.getLsbD j := by
  cases b <;> simp [setBit] <;> by_cases h : j = k <;> simp_all
  all_goals omega

/-- A data bit before the eighth (R154, "else continue accumulating"). -/
theorem pushBit_accumulates {a : FrameAssemblyState} (cfg : Config) (b : Bool) (h : a.bitCount.val < 7) :
    pushBit cfg b a =
      ({ a with currentByte := setBit a.currentByte a.bitCount b, bitCount := ⟨a.bitCount.val + 1, by omega⟩ }, .none) := by
  simp [pushBit, h]

/-- The eighth bit of a byte with room in the buffer (R154). -/
theorem pushBit_completes {a : FrameAssemblyState} (cfg : Config) (b : Bool) (h : a.bitCount = 7)
    (hn : a.byteCount.val < 19) :
    pushBit cfg b a =
      ({ a with
          currentByte := setBit a.currentByte 7 b
          bitCount := 0
          buffer := a.buffer.write a.byteCount.val (setBit a.currentByte 7 b)
          byteCount := ⟨a.byteCount.val + 1, by omega⟩ }, .none) := by
  simp [pushBit, h, hn]

/-- The eighth bit of a twentieth byte (R154, R314). -/
theorem pushBit_overflows {a : FrameAssemblyState} (cfg : Config) (b : Bool) (h : a.bitCount = 7)
    (hn : a.byteCount = 19) :
    pushBit cfg b a =
      FrameAssemblyState.raise cfg { a with currentByte := setBit a.currentByte 7 b, bitCount := 0 } .overflow := by
  simp [pushBit, h, hn]

/-- Every data bit in a frame is one of the three cases. -/
theorem bit_cases (a : FrameAssemblyState) :
    a.bitCount.val < 7 ∨ (a.bitCount = 7 ∧ a.byteCount.val < 19) ∨ (a.bitCount = 7 ∧ a.byteCount = 19) := by
  obtain ⟨-, ⟨k, hk⟩, ⟨n, hn⟩, -, -⟩ := a
  simp only [Fin.ext_iff]
  have : ((7 : Fin 8) : Nat) = 7 := rfl
  have : ((19 : Fin 20) : Nat) = 19 := rfl
  omega

theorem pushBit_buffer_wf {a : FrameAssemblyState} (cfg : Config) (b : Bool) (h : a.buffer.wf = true) :
    (pushBit cfg b a).1.buffer.wf = true := by
  rcases bit_cases a with h1 | ⟨h1, h2⟩ | ⟨h1, h2⟩
  · simpa [pushBit_accumulates cfg b h1] using h
  · simpa [pushBit_completes cfg b h1 h2] using wf_write _ h h2
  · simpa [pushBit_overflows cfg b h1 h2] using h

/-- Every assembler step keeps the buffer canonical. -/
theorem asmStep_buffer_wf {a : FrameAssemblyState} (cfg : Config) (sym : Symbol) (h : a.buffer.wf = true) :
    (asmStep cfg a sym).1.buffer.wf = true := by
  cases sym with
  | header => exact h
  | invalid => simpa [asmStep, asmInvalid] using h
  | endFrame => simp only [asmStep, asmEnd]; split <;> exact h
  | bit0 => simp only [asmStep, asmBit0, whenInFrame]; split; exact pushBit_buffer_wf cfg false h; exact h
  | bit1 => simp only [asmStep, asmBit1, whenInFrame]; split; exact pushBit_buffer_wf cfg true h; exact h

theorem pushBit_keeps_idleCountersZero {cfg : Config} (hd : cfg.literalErrorRows = false) (b : Bool)
    {a : FrameAssemblyState} (hf : a.inFrame = true) : (pushBit cfg b a).1.idleCountersZero := by
  rcases bit_cases a with h1 | ⟨h1, h2⟩ | ⟨h1, h2⟩
  · simp [pushBit_accumulates cfg b h1, FrameAssemblyState.idleCountersZero, hf]
  · simp [pushBit_completes cfg b h1 h2, FrameAssemblyState.idleCountersZero, hf]
  · simp [pushBit_overflows cfg b h1 h2, raise_default hd, FrameAssemblyState.idleCountersZero]

/-- R27 (iii) of one step, under the default reading of the error rows. -/
theorem asmStep_keeps_idleCountersZero {cfg : Config} (hd : cfg.literalErrorRows = false) (sym : Symbol)
    {a : FrameAssemblyState} (h : a.idleCountersZero) : (asmStep cfg a sym).1.idleCountersZero := by
  cases sym with
  | header => simp [asmStep, asmHeader, FrameAssemblyState.idleCountersZero]
  | invalid => simp [asmStep, asmInvalid, raise_default hd, FrameAssemblyState.idleCountersZero]
  | endFrame => simp only [asmStep, asmEnd]; split <;> simp [FrameAssemblyState.idleCountersZero]
  | bit0 =>
    simp only [asmStep, asmBit0, whenInFrame]
    split
    · exact pushBit_keeps_idleCountersZero hd false ‹_›
    · exact h
  | bit1 =>
    simp only [asmStep, asmBit1, whenInFrame]
    split
    · exact pushBit_keeps_idleCountersZero hd true ‹_›
    · exact h

end Sys2Proof.Machine
end

