-- ==== Sys2Proof/Laws/Codec.lean ====
section
/-! SUPPORT. The laws of frames as bytes and of the code tables. -/

namespace Sys2Proof

/-- A code table without repeats finds the member whose code it is given. -/
theorem find?_code {α β : Type} [DecidableEq β] {f : α → β} {l : List α} {m : α} (h : (l.map f).Nodup) (hm : m ∈ l) :
    l.find? (fun x => f x == f m) = some m := by
  induction l with
  | nil => cases hm
  | cons x rest ih =>
    simp only [List.map_cons, List.nodup_cons] at h
    rcases List.mem_cons.mp hm with rfl | hm
    · simp
    · rw [List.find?_cons_of_neg]
      · exact ih h.2 hm
      · simp only [beq_iff_eq]
        intro hx
        exact h.1 (hx ▸ List.mem_map_of_mem hm)

theorem modeOf?_modeCode {cfg : Config} (h : cfg.codesInjective) (m : Mode) : cfg.modeOf? (cfg.modeCode m) = some m :=
  find?_code h.1 (by cases m <;> decide)

theorem fanOf?_fanCode {cfg : Config} (h : cfg.codesInjective) (m : Fan) : cfg.fanOf? (cfg.fanCode m) = some m :=
  find?_code h.2.1 (by cases m <;> decide)

theorem swingOf?_swingCode {cfg : Config} (h : cfg.codesInjective) (m : Swing) :
    cfg.swingOf? (cfg.swingCode m) = some m :=
  find?_code h.2.2.1 (by cases m <;> decide)

theorem shortOf?_shortCode {cfg : Config} (h : cfg.codesInjective) (c : ShortCommand) :
    cfg.shortOf? (cfg.shortCode c) = some c :=
  find?_code h.2.2.2 (by cases c <;> decide)

/-- A command found by its code has that code. -/
theorem shortCode_of_shortOf? {cfg : Config} {code : Half} {c : ShortCommand} (h : cfg.shortOf? code = some c) :
    cfg.shortCode c = code := by
  simpa using List.find?_some h

@[simp] theorem le16_lo_hi (v : Half) : le16 (loByte v) (hiByte v) = v := by
  ext i hi
  by_cases h : i < 8
  · simp [le16, loByte, hiByte, h, BitVec.getLsbD_eq_getElem, hi]
  · have : 8 + (i - 8) = i := by omega
    simp [le16, loByte, hiByte, h, this, BitVec.getLsbD_eq_getElem, hi, show i - 8 < 8 by omega]

@[simp] theorem loByte_le16 (lo hi : Byte) : loByte (le16 lo hi) = lo := by
  ext i h
  simp [loByte, le16, h, show i < 16 by omega, BitVec.getLsbD_eq_getElem]

@[simp] theorem hiByte_le16 (lo hi : Byte) : hiByte (le16 lo hi) = hi := by
  ext i h
  simp [hiByte, le16, show 8 + i < 16 by omega, BitVec.getLsbD_eq_getElem, h]

@[simp] theorem withChecksum_length (body : List Byte) : (withChecksum body).length = body.length + 1 := by
  simp [withChecksum]

@[simp] theorem sum8_withChecksum (body : List Byte) :
    sum8 (withChecksum body) body.length = byteAt (withChecksum body) body.length := by
  simp [withChecksum, sum8, byteAt]

@[simp] theorem boolAt_top (b : Bool) : (boolAt b 7)[7] = b := by revert b; decide

@[simp] theorem fieldAt_top (v : BitVec 7) : (fieldAt v 0)[7] = false := by revert v; decide

/-- Byte 4 of an F8 frame: its kind bit. -/
@[simp] theorem kind_bit (kind : Bool) (ign : BitVec 7) : (boolAt kind 7 ||| fieldAt ign 0).getLsbD 7 = kind := by
  revert kind ign; decide

/-- Byte 4 of an F8 frame: the ignored bits. -/
@[simp] theorem ign_bits (kind : Bool) (ign : BitVec 7) :
    (boolAt kind 7 ||| fieldAt ign 0).extractLsb' 0 7 = ign := by
  revert kind ign; decide

/-- Byte 4 of an F8 frame is its kind bit and the ignored bits. -/
theorem byte4_split (b : Byte) : boolAt (b.getLsbD 7) 7 ||| fieldAt (b.extractLsb' 0 7) 0 = b := by
  revert b; decide

theorem byte5_split (b : Byte) :
    fieldAt (b.extractLsb' 4 4) 4 ||| boolAt (b.getLsbD 3) 3 ||| boolAt (b.getLsbD 2) 2 ||| boolAt (b.getLsbD 1) 1 |||
      boolAt (b.getLsbD 0) 0 = b := by
  revert b; decide

theorem byte6_split (b : Byte) :
    fieldAt (b.extractLsb' 6 2) 6 ||| fieldAt (b.extractLsb' 1 5) 1 ||| boolAt (b.getLsbD 0) 0 = b := by
  revert b; decide

theorem byte8_split (b : Byte) : fieldAt (b.extractLsb' 4 4) 4 ||| fieldAt (b.extractLsb' 0 4) 0 = b := by
  revert b; decide

theorem byte15_split (b : Byte) : fieldAt (b.extractLsb' 1 7) 1 ||| boolAt (b.getLsbD 0) 0 = b := by
  revert b; decide

end Sys2Proof
end

