-- ==== Sys2Proof/Laws/Exec.lean ====
section
/-! SUPPORT. What an instruction and a step can do, said once. -/

namespace Sys2Proof.Machine

/-- `onStream` on a receiver the system has. -/
theorem onStream_some {r : Nat} {f : FrameAssemblyState → FrameAssemblyState × Output} {s : State}
    {a : FrameAssemblyState} (h : s.streams[r]? = some a) :
    onStream r f s = .next ((s.setStream r (f a).1).emit (f a).2) := by
  simp [onStream, h]

/-- `onStream` on a receiver the system does not have. -/
theorem onStream_none {r : Nat} {f : FrameAssemblyState → FrameAssemblyState × Output} {s : State}
    (h : s.streams[r]? = none) : onStream r f s = .fault (.noSuchReceiver r) := by
  simp [onStream, h]

/-- If `onStream` answers next, the stream exists and its registers and one output changed. -/
theorem onStream_next {r : Nat} {f : FrameAssemblyState → FrameAssemblyState × Output} {s t : State}
    (h : onStream r f s = .next t) :
    ∃ a, s.streams[r]? = some a ∧ t = (s.setStream r (f a).1).emit (f a).2 := by
  cases ha : s.streams[r]? with
  | none => simp [onStream_none ha] at h
  | some a => exact ⟨a, rfl, by simpa [onStream_some ha] using h.symm⟩

/-- The three shapes of a step's effect: an output alone; one assembler step and an output; a RESET. -/
inductive Effect (s t : State) : Prop
  | output (o : Output) (h : t = s.emit o)
  | stream (r : Nat) (a : FrameAssemblyState) (sym : Symbol) (o : Output) (ha : s.streams[r]? = some a)
      (h : t = (s.setStream r (asmStep s.cfg a sym).1).emit o)
  | reset (r : Nat) (a : FrameAssemblyState) (ha : s.streams[r]? = some a)
      (h : t = { s.setStream r (FrameAssemblyState.afterReset s.freeCount) with freeCount := s.freeCount + 1 })

theorem effect_of_onStream {r : Nat} {s t : State} (sym : Symbol) (g : AsmEvent → Output)
    (h : onStream r (fun a => ((asmStep s.cfg a sym).1, g (asmStep s.cfg a sym).2)) s = .next t) : Effect s t := by
  obtain ⟨a, ha, rfl⟩ := onStream_next h
  exact .stream r a sym _ ha rfl

theorem effect_of_output {s t : State} {o : Output}
    (h : (Host.Outcome.next (s.emit o) : Host.Outcome State Fault Refusal) = .next t) : Effect s t :=
  .output o (by simpa using h.symm)

/-- Everything `exec` can do when it answers next. -/
theorem exec_effect {i : Instr} {s t : State} (h : exec i s = .next t) : Effect s t := by
  cases i with
  | asmHeader r => exact effect_of_onStream .header .asm h
  | asmInvalid r => exact effect_of_onStream .invalid .asm h
  | asmEnd r => exact effect_of_onStream .endFrame .asm h
  | asmBit0 r => exact effect_of_onStream .bit0 .asm h
  | asmBit1 r => exact effect_of_onStream .bit1 .asm h
  | rxPair r mark space => exact effect_of_onStream (classify mark space) (fun ev => .rx (deliver s.cfg ev)) h
  | rxGap r => exact effect_of_onStream .endFrame (fun ev => .rx (deliver s.cfg ev)) h
  | decode bytes length =>
    simp only [exec, execDecode] at h
    split at h
    · cases h
    · exact effect_of_output h
  | reset r =>
    simp only [exec, execReset] at h
    split at h
    · rename_i a ha; exact .reset r a ha (by simpa using h.symm)
    · cases h
  | _ => exact effect_of_output h

/-- Everything a step can do when it answers next: it waits, or it consumes the oldest input with one effect. -/
theorem step_effect {s t : State} (h : step s = .next t) :
    (s.inputs = [] ∧ t = s) ∨ ∃ w rest, s.inputs = w :: rest ∧ Effect { s with inputs := rest } t := by
  unfold step at h
  split at h
  · rename_i hi; exact .inl ⟨hi, by simpa using h.symm⟩
  · rename_i w rest hi
    refine .inr ⟨w, rest, hi, ?_⟩
    split at h
    · exact exec_effect h
    · rename_i e _
      cases e with
      | frame d => exact effect_of_output h
      | operandTooShort => cases h

/-- A property of every stream that one assembler step and RESET keep, an effect keeps. -/
theorem Effect.keeps_streams {P : FrameAssemblyState → Prop} {s t : State} (e : Effect s t)
    (hs : ∀ a ∈ s.streams, P a) (hstep : ∀ a sym, P a → P (asmStep s.cfg a sym).1)
    (hreset : ∀ n, P (FrameAssemblyState.afterReset n)) : ∀ a ∈ t.streams, P a := by
  cases e with
  | output o h => subst h; exact hs
  | stream r a sym o ha h =>
    subst h
    intro b hb
    rcases List.mem_or_eq_of_mem_set hb with hb | rfl
    · exact hs b hb
    · exact hstep a sym (hs a (List.mem_of_getElem? ha))
  | reset r a ha h =>
    subst h
    intro b hb
    rcases List.mem_or_eq_of_mem_set hb with hb | rfl
    · exact hs b hb
    · exact hreset _

/-- The buffer RESET leaves is canonical, whatever its free bytes are (log 6). -/
theorem afterReset_buffer_wf (n : Nat) : (FrameAssemblyState.afterReset n).buffer.wf = true := by
  simp only [FrameAssemblyState.afterReset]; exact wf_fill (Config.freeByte n)

/-- RESET of a stream the system has. -/
theorem exec_reset {s : State} {r : Nat} {a : FrameAssemblyState} (h : s.streams[r]? = some a) :
    exec (.reset r) s = .next
      { s.setStream r (FrameAssemblyState.afterReset s.freeCount) with freeCount := s.freeCount + 1 } := by
  simp [exec, execReset, h]

/-- A stream that was replaced. -/
theorem getElem?_set_stream {s : State} {r : Nat} {a b : FrameAssemblyState} (h : s.streams[r]? = some a) :
    (s.streams.set r b)[r]? = some b := by
  have := (List.getElem?_eq_some_iff.mp h).1
  simp [this]

theorem Effect.cfg_eq {s t : State} (e : Effect s t) : t.cfg = s.cfg := by
  cases e <;> subst_vars <;> rfl

theorem Effect.inputs_eq {s t : State} (e : Effect s t) : t.inputs = s.inputs := by
  cases e <;> subst_vars <;> rfl

theorem Effect.streams_length {s t : State} (e : Effect s t) : t.streams.length = s.streams.length := by
  cases e <;> subst_vars <;> simp

end Sys2Proof.Machine
end

