-- ==== Sys2Proof/Laws/Frames.lean ====
section
/-! SUPPORT. Frames: the bytes of a frame give its fields back, and the fields of a frame give its bytes back. -/

namespace Sys2Proof

theorem byteAt_withChecksum (body : List Byte) (i : Nat) (h : i < body.length) :
    byteAt (withChecksum body) i = byteAt body i := by
  simp [byteAt, withChecksum, List.getElem?_append_left h]

/-- A byte string whose last byte is the checksum of the others. -/
theorem eq_withChecksum {bytes : List Byte} {n : Nat} (hn : bytes.length = n + 1)
    (hc : sum8 bytes n = byteAt bytes n) : bytes = withChecksum (bytes.take n) := by
  have hl : (bytes.take n).length = n := by simp [hn]
  have hd : bytes.drop n = [byteAt bytes n] := by
    have hlt : n < bytes.length := by omega
    have hend : bytes.drop (n + 1) = [] := List.drop_eq_nil_of_le (by omega)
    rw [List.drop_eq_getElem_cons hlt, hend]
    simp [byteAt, List.getElem?_eq_getElem hlt]
  rw [withChecksum, hl]
  conv_lhs => rw [← List.take_append_drop n bytes, hd, ← hc]
  simp [sum8, List.take_take]

@[simp] theorem frame8_length (kind : Bool) (ign : BitVec 7) (b5 b6 : Byte) : (frame8 kind ign b5 b6).length = 8 := by
  simp [frame8, FRAME_HDR]

@[simp] theorem frame8_checksum (kind : Bool) (ign : BitVec 7) (b5 b6 : Byte) :
    sum8 (frame8 kind ign b5 b6) 7 = byteAt (frame8 kind ign b5 b6) 7 :=
  sum8_withChecksum (FRAME_HDR ++ [boolAt kind 7 ||| fieldAt ign 0, b5, b6])

@[simp] theorem frame8_header (kind : Bool) (ign : BitVec 7) (b5 b6 : Byte) :
    (frame8 kind ign b5 b6).take 4 = FRAME_HDR := by
  simp [frame8, withChecksum, FRAME_HDR]

@[simp] theorem frame8_byte4 (kind : Bool) (ign : BitVec 7) (b5 b6 : Byte) :
    byteAt (frame8 kind ign b5 b6) 4 = boolAt kind 7 ||| fieldAt ign 0 := rfl

@[simp] theorem frame8_byte5 (kind : Bool) (ign : BitVec 7) (b5 b6 : Byte) : byteAt (frame8 kind ign b5 b6) 5 = b5 := rfl

@[simp] theorem frame8_byte6 (kind : Bool) (ign : BitVec 7) (b5 b6 : Byte) : byteAt (frame8 kind ign b5 b6) 6 = b6 := rfl

@[simp] theorem stateFrame_length (f : StateFrame) : f.bytes.length = 19 := by
  simp [StateFrame.bytes, FRAME_HDR]

@[simp] theorem stateFrame_checksum (f : StateFrame) : sum8 f.bytes 18 = byteAt f.bytes 18 := by
  rw [StateFrame.bytes]
  exact sum8_withChecksum _

@[simp] theorem stateFrame_header (f : StateFrame) : f.bytes.take 4 = FRAME_HDR := by
  simp [StateFrame.bytes, withChecksum, FRAME_HDR]

theorem byte5_fields (m : Nibble) (a b c d : Bool) :
    let v := fieldAt m 4 ||| boolAt a 3 ||| boolAt b 2 ||| boolAt c 1 ||| boolAt d 0
    v.extractLsb' 4 4 = m ∧ v.getLsbD 3 = a ∧ v.getLsbD 2 = b ∧ v.getLsbD 1 = c ∧ v.getLsbD 0 = d := by
  revert m a b c d; decide

theorem byte6_fields (h : BitVec 2) (t : BitVec 5) (z : Bool) :
    let v := fieldAt h 6 ||| fieldAt t 1 ||| boolAt z 0
    v.extractLsb' 6 2 = h ∧ v.extractLsb' 1 5 = t ∧ v.getLsbD 0 = z := by
  revert h t z; decide

theorem nibbles_fields (h l : Nibble) :
    let v := fieldAt h 4 ||| fieldAt l 0
    v.extractLsb' 4 4 = h ∧ v.extractLsb' 0 4 = l := by
  revert h l; decide

theorem byte15_fields (h : BitVec 7) (z : Bool) :
    let v := fieldAt h 1 ||| boolAt z 0
    v.extractLsb' 1 7 = h ∧ v.getLsbD 0 = z := by
  revert h z; decide

/-- Twelve bits from their low byte and high nibble (`on_time`, R88). -/
theorem low_first (v : BitVec 12) : (v.extractLsb' 0 8).setWidth 12 ||| ((v.extractLsb' 8 4).setWidth 12 <<< 8) = v := by
  ext i hi
  by_cases h : i < 8
  · simp [h, BitVec.getLsbD_eq_getElem, hi]
  · have : 8 + (i - 8) = i := by omega
    simp [h, this, BitVec.getLsbD_eq_getElem, hi, show i - 8 < 4 by omega]

/-- Twelve bits from their low nibble and high byte (`off_time`, R88). -/
theorem high_first (v : BitVec 12) : (v.extractLsb' 0 4).setWidth 12 ||| ((v.extractLsb' 4 8).setWidth 12 <<< 4) = v := by
  ext i hi
  by_cases h : i < 4
  · simp [h, BitVec.getLsbD_eq_getElem, hi]
  · have : 4 + (i - 4) = i := by omega
    simp [h, this, BitVec.getLsbD_eq_getElem, hi, show i - 4 < 8 by omega]

theorem low_byte_of (b : Byte) (n : Nibble) : (b.setWidth 12 ||| (n.setWidth 12 <<< 8)).extractLsb' 0 8 = b := by
  ext i h
  simp [h, show i < 12 by omega, BitVec.getLsbD_eq_getElem]

theorem high_nibble_of (b : Byte) (n : Nibble) : (b.setWidth 12 ||| (n.setWidth 12 <<< 8)).extractLsb' 8 4 = n := by
  ext i h
  simp [show 8 + i < 12 by omega, BitVec.getLsbD_eq_getElem, h]

theorem low_nibble_of (n : Nibble) (b : Byte) : (n.setWidth 12 ||| (b.setWidth 12 <<< 4)).extractLsb' 0 4 = n := by
  ext i h
  simp [h, show i < 12 by omega, BitVec.getLsbD_eq_getElem]

theorem high_byte_of (n : Nibble) (b : Byte) : (n.setWidth 12 ||| (b.setWidth 12 <<< 4)).extractLsb' 4 8 = b := by
  ext i h
  simp [show 4 + i < 12 by omega, BitVec.getLsbD_eq_getElem, h]

/-- The bytes of a state frame give its fields back. -/
theorem ofBytes_bytes (f : StateFrame) : StateFrame.ofBytes f.bytes = f := by
  have h5 := byte5_fields f.modeCode f.byte5bit3 f.offTimer f.onTimer f.power
  have h6 := byte6_fields f.byte6hi f.temperature f.byte6bit0
  have h8 := nibbles_fields f.fanCode f.swingCode
  have h11 := nibbles_fields (f.offTime.extractLsb' 0 4) (f.onTime.extractLsb' 8 4)
  have h15 := byte15_fields f.byte15hi f.noTime
  have e5 : byteAt f.bytes 5 = fieldAt f.modeCode 4 ||| boolAt f.byte5bit3 3 ||| boolAt f.offTimer 2 |||
    boolAt f.onTimer 1 ||| boolAt f.power 0 := rfl
  have e6 : byteAt f.bytes 6 = fieldAt f.byte6hi 6 ||| fieldAt f.temperature 1 ||| boolAt f.byte6bit0 0 := rfl
  have e8 : byteAt f.bytes 8 = fieldAt f.fanCode 4 ||| fieldAt f.swingCode 0 := rfl
  have e10 : byteAt f.bytes 10 = f.onTime.extractLsb' 0 8 := rfl
  have e11 : byteAt f.bytes 11 = fieldAt (f.offTime.extractLsb' 0 4) 4 ||| fieldAt (f.onTime.extractLsb' 8 4) 0 := rfl
  have e12 : byteAt f.bytes 12 = f.offTime.extractLsb' 4 8 := rfl
  have e15 : byteAt f.bytes 15 = fieldAt f.byte15hi 1 ||| boolAt f.noTime 0 := rfl
  have e16 : byteAt f.bytes 16 = loByte f.time := rfl
  have e17 : byteAt f.bytes 17 = hiByte f.time := rfl
  have e4 : byteAt f.bytes 4 = f.byte4 := rfl
  have e7 : byteAt f.bytes 7 = f.byte7 := rfl
  have e9 : byteAt f.bytes 9 = f.byte9 := rfl
  have e13 : byteAt f.bytes 13 = f.byte13 := rfl
  have e14 : byteAt f.bytes 14 = f.byte14 := rfl
  simp only [StateFrame.ofBytes, e4, e5, e6, e7, e8, e9, e10, e11, e12, e13, e14, e15, e16, e17, h5, h6, h8, h11, h15,
    le16_lo_hi, low_first, high_first]

/-- A byte string of nineteen bytes, byte by byte. -/
theorem take18 {bytes : List Byte} (hl : bytes.length = 19) (hh : bytes.take 4 = FRAME_HDR) :
    bytes.take 18 = FRAME_HDR ++ (List.range 14).map (fun i => byteAt bytes (4 + i)) := by
  refine List.ext_getElem (by simp [hl, FRAME_HDR]) fun i h1 h2 => ?_
  by_cases h : i < 4
  · rw [List.getElem_append_left (by simpa [FRAME_HDR] using h)]
    simp [← hh]
  · rw [List.getElem_append_right (by simpa [FRAME_HDR] using h)]
    have : i < bytes.length := by simp at h1; omega
    simp [byteAt, FRAME_HDR, show 4 + (i - 4) = i by omega, List.getElem?_eq_getElem this]

/-- The fields of a frame of nineteen bytes with the header and the checksum give its bytes back. -/
theorem bytes_ofBytes {bytes : List Byte} (hl : bytes.length = 19) (hc : sum8 bytes 18 = byteAt bytes 18)
    (hh : bytes.take 4 = FRAME_HDR) : (StateFrame.ofBytes bytes).bytes = bytes := by
  conv_rhs => rw [eq_withChecksum (n := 18) hl hc, take18 hl hh]
  simp only [StateFrame.bytes, StateFrame.ofBytes, byte5_split, byte6_split, byte8_split, byte15_split, low_byte_of,
    high_nibble_of, low_nibble_of, high_byte_of, loByte_le16, hiByte_le16]
  rfl

/-- A byte string of eight bytes with the header and the checksum is an F8 frame. -/
theorem eq_frame8 {bytes : List Byte} (hl : bytes.length = 8) (hc : sum8 bytes 7 = byteAt bytes 7)
    (hh : bytes.take 4 = FRAME_HDR) :
    bytes = frame8 ((byteAt bytes 4).getLsbD 7) ((byteAt bytes 4).extractLsb' 0 7) (byteAt bytes 5) (byteAt bytes 6) := by
  have h7 : bytes.take 7 = FRAME_HDR ++ [byteAt bytes 4, byteAt bytes 5, byteAt bytes 6] := by
    refine List.ext_getElem (by simp [hl, FRAME_HDR]) fun i h1 h2 => ?_
    by_cases h : i < 4
    · rw [List.getElem_append_left (by simpa [FRAME_HDR] using h)]
      simp [← hh]
    · have hi : i < bytes.length := by simp at h1; omega
      have : i = 4 ∨ i = 5 ∨ i = 6 := by simp [hl] at h1; omega
      rcases this with rfl | rfl | rfl <;> simp [FRAME_HDR, byteAt, List.getElem?_eq_getElem hi]
  conv_lhs => rw [eq_withChecksum (n := 7) hl hc, h7]
  rw [frame8, byte4_split]

end Sys2Proof
end

