-- ==== Sys2Proof/Laws/Decode.lean ====
section
/-! SUPPORT. What the codec's functions do, said once: the checksum on numbers, DECODE past its checks, ENCODE.STATE's
bytes as a frame, and the frame port. -/

namespace Sys2Proof.Machine

/-- The checksum of R91 on bytes is R11's sum on numbers. -/
theorem sum8_toNat (bytes : List Byte) (n : Nat) : (sum8 bytes n).toNat = checksumOf bytes n := by
  unfold sum8 checksumOf
  induction bytes.take n with
  | nil => rfl
  | cons b l ih => rw [List.foldr_cons, BitVec.toNat_add, ih]; simp

theorem sum8_eq_iff (bytes : List Byte) (n : Nat) (v : Byte) : sum8 bytes n = v ↔ checksumOf bytes n = v.toNat := by
  rw [← sum8_toNat]; exact BitVec.toNat_inj.symm

/-- `le16` on numbers (R10). -/
theorem le16_toNat (lo hi : Byte) : (le16 lo hi).toNat = lo.toNat + 256 * hi.toNat := by
  have hl := lo.isLt
  have hh := hi.isLt
  have hs : hi.toNat <<< 8 = 2 ^ 8 * hi.toNat := by rw [Nat.shiftLeft_eq, Nat.mul_comm]
  simp only [le16, BitVec.toNat_or, BitVec.toNat_shiftLeft, BitVec.toNat_setWidth]
  rw [Nat.mod_eq_of_lt (by omega), Nat.mod_eq_of_lt (a := hi.toNat) (by omega), hs, Nat.mod_eq_of_lt (by omega),
    Nat.lor_comm, ← Nat.two_pow_add_eq_or_of_lt hl]
  omega

theorem loByte_toNat (v : Half) : (loByte v).toNat = v.toNat % 256 := by simp [loByte, BitVec.extractLsb'_toNat]

theorem hiByte_toNat (v : Half) : (hiByte v).toNat = v.toNat / 256 := by
  have := v.isLt
  simp [hiByte, BitVec.extractLsb'_toNat, Nat.shiftRight_eq_div_pow]; omega

/-- DECODE with its bytes present completes. -/
theorem exec_decode {s : State} {bytes : List Byte} {n : Nat} (h : n ≤ bytes.length) :
    exec (.decode bytes n) s = .next (s.emit (.decoded (codecDecode s.cfg bytes n))) := by
  simp [exec, execDecode, outputDecoded, Nat.not_lt.mpr h]

/-- Steps 4 and 5 of DECODE, past the three checks. -/
theorem codecDecode_eight {cfg : Config} {bytes : List Byte} (h : passesChecks bytes 8) :
    codecDecode cfg bytes 8 =
      if (byteAt bytes 4).getLsbD 7 = false then .headerProbe
      else decodeShort cfg (le16 (byteAt bytes 5) (byteAt bytes 6)) := by
  obtain ⟨_, h2, h3⟩ := h
  rw [codecDecode, if_neg (by decide), if_neg (by simpa [sum8_eq_iff] using h2),
    if_neg (by simpa [FRAME_HDR] using h3), if_pos rfl]

/-- Step 6 of DECODE, past the three checks. -/
theorem codecDecode_nineteen {cfg : Config} {bytes : List Byte} (h : passesChecks bytes 19) :
    codecDecode cfg bytes 19 = decodeState cfg (StateFrame.ofBytes bytes) := by
  obtain ⟨_, h2, h3⟩ := h
  rw [codecDecode, if_neg (by decide), if_neg (by simpa [sum8_eq_iff] using h2),
    if_neg (by simpa [FRAME_HDR] using h3), if_neg (by decide)]

theorem codecDecode_frame8 (cfg : Config) (kind : Bool) (ign : BitVec 7) (b5 b6 : Byte) :
    codecDecode cfg (frame8 kind ign b5 b6) 8 = if kind = false then .headerProbe else decodeShort cfg (le16 b5 b6) := by
  simp [codecDecode, LEN_SHORT]

theorem codecDecode_stateFrame (cfg : Config) (f : StateFrame) : codecDecode cfg f.bytes 19 = decodeState cfg f := by
  simp [codecDecode, LEN_SHORT, LEN_STATE, ofBytes_bytes]

/-- A frame the decoder reads as an instruction: the instruction's meaning is DECODE's result (R100). -/
theorem exec_of_decodeFrame {s : State} {bytes : List Byte} {i : Instr} (h : decodeFrame s.cfg bytes = .ok i)
    (u : State) (hu : u.cfg = s.cfg) :
    exec i u = .next (u.emit (.decoded (codecDecode s.cfg bytes bytes.length))) := by
  rw [← hu] at h ⊢
  simp only [decodeFrame] at h
  split at h
  · cases h
  rename_i h1
  split at h
  · cases h
  rename_i h2
  split at h
  · cases h
  rename_i h3
  rw [codecDecode, if_neg h1, if_neg h2, if_neg h3]
  split at h <;> rename_i h4
  · rw [if_pos h4]
    simp only [decodeF8] at h
    split at h <;> rename_i h5
    · cases h; rw [if_pos h5]; rfl
    · rw [if_neg h5]
      split at h <;> rename_i h6
      · rename_i c; cases h; simp only [decodeShort, h6]; cases c <;> rfl
      · cases h; simp only [decodeShort, h6, exec, execFrameShortUnknown, outputDecoded]
  · cases h; rw [if_neg h4]; rfl

/-- A frame the decoder rejects: the reason is DECODE's error (R100, log 12). -/
theorem codecDecode_of_reject {cfg : Config} {bytes : List Byte} {x : Reject} (h : decodeFrame cfg bytes = .error x) :
    ∃ e, x = .frame e ∧ codecDecode cfg bytes bytes.length = .err e := by
  simp only [decodeFrame] at h
  split at h
  · cases h; rename_i h1; exact ⟨_, rfl, by rw [codecDecode, if_pos h1]⟩
  rename_i h1
  split at h
  · cases h; rename_i h2; exact ⟨_, rfl, by rw [codecDecode, if_neg h1, if_pos h2]⟩
  rename_i h2
  split at h
  · cases h; rename_i h3; exact ⟨_, rfl, by rw [codecDecode, if_neg h1, if_neg h2, if_pos h3]⟩
  split at h <;> cases h

theorem exec_encodeShort {s : State} {c : ShortCommand} {capacity : Nat} (h : 8 ≤ capacity) :
    exec (.encodeShort c capacity) s = .next (s.emit (.encoded (.ok (encodeShortBytes s.cfg c) 8))) := by
  simp [exec, execEncodeShort, codecEncodeShort, LEN_SHORT, Nat.not_lt.mpr h]

theorem exec_encodeState {s : State} {c : StateCommand} {capacity : Nat} (h : 19 ≤ capacity) :
    exec (.encodeState c capacity) s = .next (s.emit (.encoded (.ok (encodeStateBytes s.cfg c) 19))) := by
  simp [exec, execEncodeState, codecEncodeState, LEN_STATE, Nat.not_lt.mpr h]

/-- ENCODE.SHORT builds the frame row's frame with its ignored bits 0 (R83, R211). -/
theorem encodeShortBytes_eq (cfg : Config) (c : ShortCommand) : encodeShortBytes cfg c = shortFrame cfg 0 c := rfl

/-- The fields of the frame ENCODE.STATE builds (R212 to R215). -/
def encodedFrame (cfg : Config) (c : StateCommand) : StateFrame where
  byte4 := 0
  modeCode := cfg.modeCode c.mode
  byte5bit3 := true
  offTimer := c.offTimer
  onTimer := c.onTimer
  power := c.power
  byte6hi := 0
  temperature := c.temperature
  byte6bit0 := false
  byte7 := 0x80
  fanCode := cfg.fanCode c.fan
  swingCode := cfg.swingCode c.swing
  byte9 := 0
  onTime := (collapse c).onTime.setWidth 12
  offTime := (collapse c).offTime.setWidth 12
  byte13 := 0
  byte14 := 0
  byte15hi := 0x40
  noTime := c.noTime
  time := (collapse c).time

theorem encodeStateBytes_eq (cfg : Config) (c : StateCommand) : encodeStateBytes cfg c = (encodedFrame cfg c).bytes := by
  have e1 : ∀ v : Half, (v.setWidth 12).extractLsb' 0 8 = v.extractLsb' 0 8 := by intro v; ext i h; simp; omega
  have e2 : ∀ v : Half, (v.setWidth 12).extractLsb' 0 4 = v.extractLsb' 0 4 := by intro v; ext i h; simp; omega
  have e3 : ∀ v : Half, (v.setWidth 12).extractLsb' 8 4 = v.extractLsb' 8 4 := by intro v; ext i h; simp; omega
  have e4 : ∀ v : Half, (v.setWidth 12).extractLsb' 4 8 = v.extractLsb' 4 8 := by intro v; ext i h; simp; omega
  have e5 : boolAt true 3 = 0x08 := by decide
  have e6 : ∀ t : BitVec 5, fieldAt (0 : BitVec 2) 6 ||| fieldAt t 1 ||| boolAt false 0 = fieldAt t 1 := by decide
  have e7 : fieldAt (0x40 : BitVec 7) 1 = 0x80 := by decide
  simp only [StateFrame.bytes, encodedFrame, e1, e2, e3, e4, e5, e6, e7]
  rfl

/-- Twelve bits of a 16-bit value, on numbers (D13). -/
theorem low12 (v : Half) : (v.setWidth 12).setWidth 16 = BitVec.ofNat 16 (v.toNat % 4096) := by
  apply BitVec.eq_of_toNat_eq; simp

end Sys2Proof.Machine
end

