-- ==== Sys2Proof/Laws/Receive.lean ====
section
/-! SUPPORT. Many symbols through one stream's assembler, and what a framed byte string does to it. -/

namespace Sys2Proof.Machine

/-- A symbol list through the assembler: the registers it leaves and the events it gives, one a symbol. -/
def feed (cfg : Config) : FrameAssemblyState → List Symbol → FrameAssemblyState × List AsmEvent
  | a, [] => (a, [])
  | a, y :: ys => ((feed cfg (asmStep cfg a y).1 ys).1, (asmStep cfg a y).2 :: (feed cfg (asmStep cfg a y).1 ys).2)

theorem feed_append (cfg : Config) (a : FrameAssemblyState) (xs ys : List Symbol) :
    feed cfg a (xs ++ ys) =
      ((feed cfg (feed cfg a xs).1 ys).1, (feed cfg a xs).2 ++ (feed cfg (feed cfg a xs).1 ys).2) := by
  induction xs generalizing a with
  | nil => rfl
  | cons x xs ih => simp [feed, ih]

/-- A word that is one assembler step of stream `r` with an output made from its event. -/
theorem step_stream {s : State} {w : PortWord} {rest : List PortWord} {r : Nat} {a : FrameAssemblyState}
    {y : Symbol} {g : AsmEvent → Output} {i : Instr} (hi : s.inputs = w :: rest) (hd : decodeWord s.cfg w = .ok i)
    (he : ∀ u : State, u.cfg = s.cfg → u.streams[r]? = some a →
      exec i u = .next ((u.setStream r (asmStep s.cfg a y).1).emit (g (asmStep s.cfg a y).2)))
    (ha : s.streams[r]? = some a) :
    step s = .next ((({ s with inputs := rest } : State).setStream r (asmStep s.cfg a y).1).emit
      (g (asmStep s.cfg a y).2)) := by
  simp only [step, hi, hd]
  exact he { s with inputs := rest } rfl ha

/-- Words that are each one assembler step of stream `r`: the run is `feed`. -/
theorem run_feed {r : Nat} {g : AsmEvent → Output} {cfg : Config} (word : Symbol → PortWord → Prop)
    (hword : ∀ y w, word y w → ∃ i, decodeWord cfg w = .ok i ∧ ∀ (u : State) (a : FrameAssemblyState), u.cfg = cfg →
      u.streams[r]? = some a →
      exec i u = .next ((u.setStream r (asmStep cfg a y).1).emit (g (asmStep cfg a y).2)))
    (ys : List Symbol) (ws rest : List PortWord) (hl : List.Forall₂ word ys ws) (s : State) (a : FrameAssemblyState)
    (hc : s.cfg = cfg) (ha : s.streams[r]? = some a) (hi : s.inputs = ws ++ rest) :
    runSteps ys.length s = .next
      { s with
        streams := s.streams.set r (feed cfg a ys).1
        inputs := rest
        outputs := s.outputs ++ (feed cfg a ys).2.map g } := by
  induction hl generalizing s a with
  | nil =>
    have := setStream_self ha
    simp only [State.setStream] at this
    simp only [feed, List.length_nil, runSteps, List.map_nil, List.append_nil]
    simp at hi
    cases s
    simp_all
  | @cons y w ys ws hyw _ ih =>
    subst hc
    obtain ⟨i, hd, he⟩ := hword y w hyw
    have hstep := step_stream (g := g) (y := y) (by simpa using hi) hd (fun u hu hua => he u a hu hua) ha
    simp only [List.length_cons, runSteps, hstep]
    have hr : r < s.streams.length := (List.getElem?_eq_some_iff.mp ha).1
    have hrun := ih ((({ s with inputs := ws ++ rest } : State).setStream r (asmStep s.cfg a y).1).emit
      (g (asmStep s.cfg a y).2)) (asmStep s.cfg a y).1 rfl (by simp [hr]) rfl
    rw [hrun]
    simp [feed]

theorem exec_decodeSymbol {u : State} {r : Nat} {a : FrameAssemblyState} (y : Symbol) (ha : u.streams[r]? = some a) :
    exec (decodeSymbol r y) u = .next ((u.setStream r (asmStep u.cfg a y).1).emit (.asm (asmStep u.cfg a y).2)) := by
  cases y <;> exact onStream_some ha

theorem exec_rxPair {u : State} {r mark space : Nat} {a : FrameAssemblyState} (ha : u.streams[r]? = some a) :
    exec (.rxPair r mark space) u = .next ((u.setStream r (asmStep u.cfg a (classify mark space)).1).emit
      (.rx (deliver u.cfg (asmStep u.cfg a (classify mark space)).2))) :=
  onStream_some ha

/-- Symbols presented on a stream's assembler port. -/
theorem run_symbols {r : Nat} (ys : List Symbol) (rest : List PortWord) (s : State) (a : FrameAssemblyState)
    (ha : s.streams[r]? = some a) (hi : s.inputs = ys.map (PortWord.symbol r) ++ rest) :
    runSteps ys.length s = .next
      { s with
        streams := s.streams.set r (feed s.cfg a ys).1
        inputs := rest
        outputs := s.outputs ++ (feed s.cfg a ys).2.map Output.asm } := by
  refine run_feed (g := .asm) (fun y w => w = .symbol r y) ?_ ys _ rest ?_ s a rfl ha hi
  · rintro y w rfl
    refine ⟨decodeSymbol r y, rfl, fun u a hc hua => ?_⟩
    rw [← hc]; exact exec_decodeSymbol y hua
  · rw [List.forall₂_map_right_iff]; exact List.forall₂_same.mpr fun _ _ => rfl

/-- Pulse pairs presented on a stream's receive port. -/
theorem run_pairs {r : Nat} (ps : PulseSeq) (rest : List PortWord) (s : State) (a : FrameAssemblyState)
    (ha : s.streams[r]? = some a) (hi : s.inputs = ps.map (fun p => PortWord.rxPair r p.mark p.space) ++ rest) :
    runSteps ps.length s = .next
      { s with
        streams := s.streams.set r (feed s.cfg a (ps.map fun p => classify p.mark p.space)).1
        inputs := rest
        outputs := s.outputs ++
          (feed s.cfg a (ps.map fun p => classify p.mark p.space)).2.map (fun ev => .rx (deliver s.cfg ev)) } := by
  have h := run_feed (r := r) (g := fun ev => .rx (deliver s.cfg ev)) (cfg := s.cfg)
    (fun y w => ∃ p : PulsePair, y = classify p.mark p.space ∧ w = .rxPair r p.mark p.space) ?_
    (ps.map fun p => classify p.mark p.space) _ rest ?_ s a rfl ha hi
  · simpa using h
  · rintro y w ⟨p, rfl, rfl⟩
    refine ⟨.rxPair r p.mark p.space, rfl, fun u a hc hua => ?_⟩
    rw [← hc]; exact exec_rxPair hua
  · rw [List.forall₂_map_right_iff, List.forall₂_map_left_iff]
    exact List.forall₂_same.mpr fun p _ => ⟨p, rfl, rfl⟩

/-- A data bit in a frame is `pushBit`. -/
theorem asmStep_bit {a : FrameAssemblyState} (cfg : Config) (b : Bool) (h : a.inFrame = true) :
    asmStep cfg a (if b then .bit1 else .bit0) = pushBit cfg b a := by
  cases b <;> simp [asmStep, asmBit0, asmBit1, whenInFrame, h]

/-- Eight overwritten bits are the byte they spell (R24). -/
theorem setBit_all (c v : Byte) :
    setBit (setBit (setBit (setBit (setBit (setBit (setBit (setBit c 0 (v.getLsbD 0)) 1 (v.getLsbD 1)) 2 (v.getLsbD 2)) 3
      (v.getLsbD 3)) 4 (v.getLsbD 4)) 5 (v.getLsbD 5)) 6 (v.getLsbD 6)) 7 (v.getLsbD 7) = v := by
  refine BitVec.eq_of_getLsbD_eq fun j hj => ?_
  rw [setBit_getLsbD _ _ (by omega) hj, setBit_getLsbD _ _ (by omega) hj, setBit_getLsbD _ _ (by omega) hj,
    setBit_getLsbD _ _ (by omega) hj, setBit_getLsbD _ _ (by omega) hj, setBit_getLsbD _ _ (by omega) hj,
    setBit_getLsbD _ _ (by omega) hj, setBit_getLsbD _ _ (by omega) hj]
  interval_cases j <;> rfl

/-- A whole byte in a frame with room: stored at `byte_count`, no event. -/
theorem feed_byte {a : FrameAssemblyState} (cfg : Config) (v : Byte) (hf : a.inFrame = true) (hb : a.bitCount = 0)
    (hn : a.byteCount.val < 19) :
    feed cfg a (byteSymbols v) =
      ({ inFrame := true, bitCount := 0, byteCount := ⟨a.byteCount.val + 1, by omega⟩, currentByte := v,
         buffer := a.buffer.write a.byteCount.val v }, List.replicate 8 .none) := by
  obtain ⟨f, k, n, c, m⟩ := a
  simp only at hf hb hn
  subst hf hb
  have hv := setBit_all c v
  have e : byteSymbols v = [
      if v.getLsbD 0 then .bit1 else .bit0, if v.getLsbD 1 then .bit1 else .bit0,
      if v.getLsbD 2 then .bit1 else .bit0, if v.getLsbD 3 then .bit1 else .bit0,
      if v.getLsbD 4 then .bit1 else .bit0, if v.getLsbD 5 then .bit1 else .bit0,
      if v.getLsbD 6 then .bit1 else .bit0, if v.getLsbD 7 then .bit1 else .bit0] := rfl
  rw [e]
  generalize v.getLsbD 0 = b0, v.getLsbD 1 = b1, v.getLsbD 2 = b2, v.getLsbD 3 = b3, v.getLsbD 4 = b4,
    v.getLsbD 5 = b5, v.getLsbD 6 = b6, v.getLsbD 7 = b7 at hv
  subst hv
  simp [feed, asmStep_bit, pushBit, hn, List.replicate]

/-- Whole bytes in a frame with room: appended to the bytes before, no event. -/
theorem feed_bytes (cfg : Config) (data : List Byte) (a : FrameAssemblyState) (hf : a.inFrame = true)
    (hb : a.bitCount = 0) (hn : a.byteCount.val + data.length ≤ 19) (hw : a.buffer.wf = true) :
    ∃ b : FrameAssemblyState, feed cfg a (data.flatMap byteSymbols) = (b, List.replicate (8 * data.length) .none) ∧
      b.inFrame = true ∧ b.bitCount = 0 ∧ b.byteCount.val = a.byteCount.val + data.length ∧ b.buffer.wf = true ∧
      b.buffer.slice b.byteCount.val = a.buffer.slice a.byteCount.val ++ data := by
  induction data generalizing a with
  | nil => exact ⟨a, rfl, hf, hb, rfl, hw, by simp⟩
  | cons v data ih =>
    simp only [List.length_cons] at hn
    have hv := feed_byte cfg v hf hb (by omega)
    have hw' : (a.buffer.write a.byteCount.val v).wf = true := wf_write v hw (by show a.byteCount.val < 19; omega)
    obtain ⟨b, h1, h2, h3, h4, h5, h6⟩ := ih (feed cfg a (byteSymbols v)).1 (by rw [hv]) (by rw [hv])
      (by rw [hv]; show a.byteCount.val + 1 + data.length ≤ 19; omega) (by rw [hv]; exact hw')
    rw [hv] at h4 h6
    refine ⟨b, ?_, h2, h3, ?_, h5, ?_⟩
    · rw [List.flatMap_cons, feed_append, h1, hv]
      show (b, List.replicate 8 AsmEvent.none ++ List.replicate (8 * data.length) AsmEvent.none) = _
      rw [List.replicate_append_replicate, List.length_cons, Nat.mul_succ, Nat.add_comm]
    · rw [h4]; simp only [List.length_cons]; omega
    · rw [h6]
      simp only
      rw [slice_succ, slice_write, read_write_same _ _ hw]; simp

/-- One framed byte string from any registers (R161). -/
theorem feed_frame (cfg : Config) (data : List Byte) (a : FrameAssemblyState) (hn : data.length ≤ 19)
    (hw : a.buffer.wf = true) :
    ∃ b : FrameAssemblyState, feed cfg a (frameSymbols data) =
        (b, List.replicate (8 * data.length + 1) .none ++ [.frameComplete data.length data]) ∧
      b.quiescent = true ∧ b.buffer.wf = true := by
  obtain ⟨b, h1, h2, h3, h4, h5, h6⟩ := feed_bytes cfg data a.startFrame rfl rfl (by simpa using hn) hw
  have h4' : b.byteCount.val = data.length := by simpa using h4
  have h6' : b.buffer.slice data.length = data := by rw [← h4', h6]; simp [Memory.slice]
  refine ⟨b.toIdle, ?_, rfl, h5⟩
  rw [frameSymbols, List.append_assoc, feed_append, feed_append]
  simp only [feed, asmStep, asmHeader, h1, asmEnd, h3, h4', h6']
  simp [List.replicate_succ]

end Sys2Proof.Machine
end

