-- ==== Sys2Proof/Laws/Host.lean ====
section
/-! SUPPORT. The host around the block: what the receive loop's inputs do, what its duty to issue RX_GAP gives, and when a
control-surface request is rejected. -/

namespace Sys2Proof.Machine

/-! ## The receive loop -/

/-- The symbols of one answer of the pulse source. -/
def wakeupSymbols : Wakeup → List Symbol
  | some (p :: ps) => (p :: ps).map (fun q => classify q.mark q.space)
  | some [] => [.endFrame]
  | none => [.endFrame]

/-- Every answer of the pulse source gives the block an input, and it is a pair or RX_GAP of that stream (R282, R283). -/
theorem wakeupInputs_cons (r : Nat) (w : Wakeup) :
    ∃ x xs, wakeupInputs r w = x :: xs ∧ (x = .rxGap r ∨ ∃ mark space, x = .rxPair r mark space) := by
  rcases w with _ | _ | ⟨p, ps⟩
  · exact ⟨_, _, rfl, .inl rfl⟩
  · exact ⟨_, _, rfl, .inl rfl⟩
  · exact ⟨_, _, rfl, .inr ⟨_, _, rfl⟩⟩

/-- A word of stream `r`'s receive port and its symbol: a pair its verdict, RX_GAP an End. -/
abbrev rxWord (r : Nat) (y : Symbol) (w : PortWord) : Prop :=
  (∃ mark space, y = classify mark space ∧ w = .rxPair r mark space) ∨ (y = .endFrame ∧ w = .rxGap r)

theorem receiveLoop_words (r : Nat) (ws : List Wakeup) :
    List.Forall₂ (rxWord r) (ws.flatMap wakeupSymbols) (receiveLoop r ws) := by
  have one : ∀ w, List.Forall₂ (rxWord r) (wakeupSymbols w) (wakeupInputs r w) := by
    rintro (_ | _ | ⟨p, ps⟩)
    · exact .cons (.inr ⟨rfl, rfl⟩) .nil
    · exact .cons (.inr ⟨rfl, rfl⟩) .nil
    · rw [wakeupSymbols, wakeupInputs, List.forall₂_map_right_iff, List.forall₂_map_left_iff]
      exact List.forall₂_same.mpr fun q _ => .inl ⟨_, _, rfl, rfl⟩
  induction ws with
  | nil => exact .nil
  | cons w ws ih =>
    simp only [receiveLoop, List.flatMap_cons] at ih ⊢
    exact List.rel_append (one w) ih

/-- The receive loop's inputs run to their end, each symbol through the stream's assembler, one event each (R282). -/
theorem run_receiveLoop {r : Nat} (ws : List Wakeup) (rest : List PortWord) (s : State) (a : FrameAssemblyState)
    (ha : s.streams[r]? = some a) (hi : s.inputs = receiveLoop r ws ++ rest) :
    runSteps (receiveLoop r ws).length s = .next
      { s with
        streams := s.streams.set r (feed s.cfg a (ws.flatMap wakeupSymbols)).1
        inputs := rest
        outputs := s.outputs ++ (feed s.cfg a (ws.flatMap wakeupSymbols)).2.map (fun ev => .rx (deliver s.cfg ev)) } := by
  rw [← (receiveLoop_words r ws).length_eq]
  refine run_feed (rxWord r) ?_ _ _ rest (receiveLoop_words r ws) s a rfl ha hi
  rintro y w (⟨mark, space, rfl, rfl⟩ | ⟨rfl, rfl⟩)
  · exact ⟨_, rfl, fun u a hc hua => hc ▸ exec_rxPair hua⟩
  · exact ⟨_, rfl, fun u a hc hua => hc ▸ onStream_some hua⟩

/-- An End closes the stream, whatever it held (R153). -/
theorem asmEnd_quiescent (a : FrameAssemblyState) : (asmEnd a).1.quiescent = true := by
  simp only [asmEnd]; split <;> rfl

/-- After a wait that timed out with no data the stream is quiescent (R283, R355). -/
theorem run_receiveLoop_timeout {r : Nat} (ws : List Wakeup) (rest : List PortWord) (s : State) (a : FrameAssemblyState)
    (ha : s.streams[r]? = some a) (hi : s.inputs = receiveLoop r (ws ++ [none]) ++ rest) :
    ∃ (t : State) (b : FrameAssemblyState), runSteps (receiveLoop r (ws ++ [none])).length s = .next t ∧
      t.streams = s.streams.set r b ∧ b.quiescent = true ∧ t.inputs = rest := by
  refine ⟨_, _, run_receiveLoop _ rest s a ha hi, rfl, ?_, rfl⟩
  rw [List.flatMap_append, feed_append]
  exact asmEnd_quiescent _

/-! ## The duty to issue RX_GAP -/

/-- R283's duty meets R293's assumption. -/
theorem Schedule.gapDuty.notWithheld {h : Schedule} {r : Nat} (hd : h.gapDuty r) : h.gapNotWithheld r :=
  fun n mark space hn _ => hd n ⟨mark, space, hn⟩

/-- After the last pair of a stream, a host that keeps its duty issues RX_GAP (R283). -/
theorem Schedule.gapDuty.gap_after_last {h : Schedule} {r n : Nat} (hd : h.gapDuty r) (hn : h.pairAt r n)
    (hlast : ∀ m, n < m → ¬ h.pairAt r m) : ∃ m, n < m ∧ h m = some (.rxGap r) := by
  obtain ⟨m, hm, hg | hp⟩ := hd n hn
  · exact ⟨m, hm, hg⟩
  · exact absurd hp (hlast m hm)

/-- Stream `r` exists and is quiescent. -/
abbrev State.quiet (s : State) (r : Nat) : Prop := ∃ a, s.streams[r]? = some a ∧ a.quiescent = true

/-- One moment of the host: the input it presents is consumed. -/
theorem hostRun_succ {h : Schedule} {n : Nat} {s t : State} (ht : hostRun h (n + 1) s = .next t) :
    ∃ u, hostRun h n s = .next u ∧ step (u.present (h n).toList) = .next t := by
  unfold hostRun at ht
  split at ht
  · exact ⟨_, ‹_›, ht⟩
  · cases ht
  · cases ht

/-- Between the moments no input is pending. -/
theorem hostRun_inputs {h : Schedule} {s : State} (hs : s.inputs = []) {n : Nat} {t : State}
    (ht : hostRun h n s = .next t) : t.inputs = [] := by
  induction n generalizing t with
  | zero => cases ht; exact hs
  | succ n ih =>
    obtain ⟨u, hu, hstep⟩ := hostRun_succ ht
    have hui := ih hu
    rcases step_effect hstep with ⟨hi, rfl⟩ | ⟨w, rest, hi, he⟩
    · exact hi
    · rw [he.inputs_eq]
      cases hw : h n <;> simp_all [State.present]

/-- RX_GAP leaves its stream quiescent. -/
theorem exec_rxGap_quiet {s t : State} {r : Nat} (h : exec (.rxGap r) s = .next t) : t.quiet r := by
  obtain ⟨a, ha, rfl⟩ := onStream_next h
  exact ⟨_, getElem?_set_stream ha, asmEnd_quiescent a⟩

/-- A step on one stream keeps another quiet. -/
theorem onStream_quiet {q r : Nat} {f : FrameAssemblyState → FrameAssemblyState × Output} {s t : State}
    (hs : s.quiet r) (hf : ∀ a, q = r → (f a).1.quiescent = true) (h : onStream q f s = .next t) : t.quiet r := by
  obtain ⟨a, ha, rfl⟩ := onStream_next h
  by_cases hq : q = r
  · subst hq; exact ⟨_, getElem?_set_stream ha, hf a rfl⟩
  · obtain ⟨b, hb, hbq⟩ := hs
    exact ⟨b, by simpa [State.setStream, State.emit, hq] using hb, hbq⟩

theorem output_quiet {r : Nat} {s t : State} {o : Output} (hs : s.quiet r)
    (h : (Host.Outcome.next (s.emit o) : Host.Outcome State Fault Refusal) = .next t) : t.quiet r := by
  cases h; exact hs

/-- A word that is neither a symbol nor a pair of a quiet stream keeps it quiet: nothing else starts a frame. -/
theorem step_quiet {r : Nat} {w : PortWord} {rest : List PortWord} {s t : State} (hi : s.inputs = w :: rest)
    (hs : s.quiet r) (hsym : ∀ y, w ≠ .symbol r y) (hpair : ∀ mark space, w ≠ .rxPair r mark space)
    (h : step s = .next t) : t.quiet r := by
  have hs' : ({ s with inputs := rest } : State).quiet r := hs
  simp only [step, hi] at h
  cases w with
  | pair mark space =>
    simp only [decodeWord, decodePair] at h
    split_ifs at h <;> exact output_quiet hs' h
  | frame bytes =>
    cases hd : decodeWord s.cfg (.frame bytes) with
    | ok i =>
      rw [hd] at h
      obtain ⟨o, ho⟩ : ∃ o, exec i { s with inputs := rest } = .next (({ s with inputs := rest } : State).emit o) := by
        simp only [decodeWord, decodeFrame] at hd
        split_ifs at hd <;> cases hd
        · simp only [decodeF8]
          split_ifs
          · exact ⟨_, rfl⟩
          · split
            · rename_i c _; cases c <;> exact ⟨_, rfl⟩
            · exact ⟨_, rfl⟩
        · exact ⟨_, rfl⟩
      exact output_quiet hs' (ho.symm.trans h)
    | error e =>
      rw [hd] at h
      cases e with
      | frame d => exact output_quiet hs' h
      | operandTooShort => cases h
  | classify mark space => exact output_quiet hs' h
  | symbol q y =>
    have hq : ∀ a : FrameAssemblyState, q = r → (asmStep s.cfg a y).1.quiescent = true :=
      fun _ hq => absurd (by rw [hq]) (hsym y)
    cases y <;> exact onStream_quiet hs' hq h
  | decode bytes length =>
    simp only [decodeWord] at h
    by_cases hl : bytes.length < length
    · rw [if_pos hl] at h; cases h
    · rw [if_neg hl] at h
      simp only [exec, execDecode, hl, if_false] at h
      exact output_quiet hs' h
  | encode c capacity => cases c <;> exact output_quiet hs' h
  | pulseEncode data => exact output_quiet hs' h
  | rxPair q mark space => exact onStream_quiet hs' (fun _ hq => absurd (by rw [hq]) (hpair mark space)) h
  | rxGap q => exact onStream_quiet hs' (fun a _ => asmEnd_quiescent a) h
  | txCommand c => exact output_quiet hs' h
  | reset q =>
    simp only [decodeWord, exec, execReset] at h
    split at h
    · rename_i a ha
      cases h
      by_cases hq : q = r
      · subst hq; exact ⟨_, getElem?_set_stream ha, rfl⟩
      · obtain ⟨b, hb, hbq⟩ := hs
        exact ⟨b, by simpa [State.setStream, hq] using hb, hbq⟩
    · cases h

/-- What the duty gives (R283, R355): under a host that keeps it, whose last pair of stream `r` comes at moment `n` and
that drives that stream's assembler port no more, the stream is quiescent from some moment on. -/
theorem hostRun_gapDuty {h : Schedule} {r n : Nat} {s : State} (hd : h.gapDuty r) (hn : h.pairAt r n)
    (hlast : ∀ m, n < m → ¬ h.pairAt r m) (hsym : ∀ m, n < m → ∀ y, h m ≠ some (.symbol r y)) (hs : s.inputs = []) :
    ∃ m, n < m ∧ ∀ k, m < k → ∀ t, hostRun h k s = .next t → t.quiet r := by
  obtain ⟨m, hm, hg⟩ := hd.gap_after_last hn hlast
  refine ⟨m, hm, fun k hk => ?_⟩
  induction k, hk using Nat.le_induction with
  | base =>
    intro t ht
    obtain ⟨u, hu, hstep⟩ := hostRun_succ ht
    simp only [step, State.present, hostRun_inputs hs hu, hg, Option.toList_some, List.nil_append, decodeWord] at hstep
    exact exec_rxGap_quiet hstep
  | succ k hk ih =>
    intro t ht
    obtain ⟨u, hu, hstep⟩ := hostRun_succ ht
    have hmk : n < k := by omega
    have hui := hostRun_inputs hs hu
    cases hw : h k with
    | none =>
      simp only [step, State.present, hui, hw, Option.toList_none, List.nil_append, Host.Outcome.next.injEq] at hstep
      subst hstep
      exact ih u hu
    | some w =>
      refine step_quiet (w := w) (s := u.present (h k).toList) (rest := []) ?_ (ih u hu) ?_ ?_ hstep
      · simp [State.present, hui, hw]
      · rintro y rfl; exact hsym k hmk y hw
      · rintro mark space rfl; exact hlast k hmk ⟨mark, space, hw⟩

/-! ## Rejected control-surface commands -/

/-- What a mutation that is not rejected is: the mutation itself, and it transmits a pulse sequence (R291). -/
theorem rejectEncodeError_eq_some {m : Option (DeviceState × Cycle)} {p : DeviceState × Cycle} :
    rejectEncodeError m = some p ↔ m = some p ∧ ∃ seq, p.2.transmitted = .pulses seq := by
  simp only [rejectEncodeError, Option.filter_eq_some_iff]
  cases p.2.transmitted <;> simp

/-- A mutation whose encode errs is rejected (R291). -/
theorem rejectEncodeError_err {p : DeviceState × Cycle} {e : EncodeError} (h : p.2.transmitted = .err e) :
    rejectEncodeError (some p) = none := by
  simp [rejectEncodeError, h]

end Sys2Proof.Machine
end

