-- ==== Sys2Proof/Laws/PerInstr.lean ====
section
/-! SUPPORT. Per instruction: the decoder gives back a well-formed instruction from the encoder's port word. -/

namespace Sys2Proof

/-- An F8 frame decodes by its kind bit and its code. -/
theorem decodeFrame_frame8 (cfg : Config) (kind : Bool) (ign : BitVec 7) (b5 b6 : Byte) :
    decodeFrame cfg (frame8 kind ign b5 b6) = .ok
      (if kind = false then .frameHeaderProbe ign b5 b6
       else match cfg.shortOf? (le16 b5 b6) with
         | some c => frameShortInstr ign c
         | none => .frameShortUnknown ign (le16 b5 b6)) := by
  cases kind <;> cases hc : cfg.shortOf? (le16 b5 b6) <;> simp [decodeFrame, decodeF8, LEN_SHORT, hc]

theorem decodeFrame_shortFrame {cfg : Config} (h : cfg.codesInjective) (ign : BitVec 7) (c : ShortCommand) :
    decodeFrame cfg (shortFrame cfg ign c) = .ok (frameShortInstr ign c) := by
  simp [shortFrame, decodeFrame_frame8, shortOf?_shortCode h]

theorem decodeFrame_stateFrame (cfg : Config) (f : StateFrame) : decodeFrame cfg f.bytes = .ok (.frameState f) := by
  simp [decodeFrame, LEN_SHORT, LEN_STATE, ofBytes_bytes]

end Sys2Proof

namespace Sys2Proof.Laws.RoundTrip

/-- Decoding the port word of a well-formed instruction gives the instruction back. -/
def Statement (i : Instr) : Prop :=
  ∀ cfg : Config, cfg.codesInjective → i.wellFormed cfg = true → decodeWord cfg (encodeWord cfg i) = .ok i

theorem symEnd (mark : Nat) : Statement (.symEnd mark) := by
  intro cfg _ _; simp [decodeWord, encodeWord, decodePair]

theorem symHeader (mark : Nat) (space : Nat) : Statement (.symHeader mark space) := by
  intro cfg _ h
  simp only [Instr.wellFormed, decide_eq_true_eq] at h
  simp only [decodeWord, encodeWord, decodePair, Except.ok.injEq]
  rw [if_neg (by omega), if_pos h]

theorem symInvalid (mark : Nat) (space : Nat) : Statement (.symInvalid mark space) := by
  intro cfg _ h
  simp only [Instr.wellFormed, decide_eq_true_eq] at h
  simp only [decodeWord, encodeWord, decodePair, Except.ok.injEq]
  rw [if_neg (by omega), if_neg h.2.1, if_pos h]

theorem symBit0 (mark : Nat) (space : Nat) : Statement (.symBit0 mark space) := by
  intro cfg _ h
  simp only [Instr.wellFormed, decide_eq_true_eq] at h
  simp only [decodeWord, encodeWord, decodePair, Except.ok.injEq]
  rw [if_neg (by omega), if_neg h.2.1, if_neg (by omega), if_pos h]

theorem symBit1 (mark : Nat) (space : Nat) : Statement (.symBit1 mark space) := by
  intro cfg _ h
  simp only [Instr.wellFormed, decide_eq_true_eq] at h
  simp only [decodeWord, encodeWord, decodePair, Except.ok.injEq]
  rw [if_neg (by omega), if_neg h.2.1, if_neg (by omega), if_neg (by omega)]

theorem frameHeaderProbe (ign : BitVec 7) (byte5 : Byte) (byte6 : Byte) : Statement (.frameHeaderProbe ign byte5 byte6) := by
  intro cfg _ _; simp [decodeWord, encodeWord, decodeFrame_frame8]

theorem frameShortEion (ign : BitVec 7) : Statement (.frameShortEion ign) := by
  intro cfg h _; exact decodeFrame_shortFrame h ign _

theorem frameShortPatrol (ign : BitVec 7) : Statement (.frameShortPatrol ign) := by
  intro cfg h _; exact decodeFrame_shortFrame h ign _

theorem frameShortQuiet (ign : BitVec 7) : Statement (.frameShortQuiet ign) := by
  intro cfg h _; exact decodeFrame_shortFrame h ign _

theorem frameShortPowerful (ign : BitVec 7) : Statement (.frameShortPowerful ign) := by
  intro cfg h _; exact decodeFrame_shortFrame h ign _

theorem frameShortCheck (ign : BitVec 7) : Statement (.frameShortCheck ign) := by
  intro cfg h _; exact decodeFrame_shortFrame h ign _

theorem frameShortSetAir1 (ign : BitVec 7) : Statement (.frameShortSetAir1 ign) := by
  intro cfg h _; exact decodeFrame_shortFrame h ign _

theorem frameShortSetAir2 (ign : BitVec 7) : Statement (.frameShortSetAir2 ign) := by
  intro cfg h _; exact decodeFrame_shortFrame h ign _

theorem frameShortSetAir3 (ign : BitVec 7) : Statement (.frameShortSetAir3 ign) := by
  intro cfg h _; exact decodeFrame_shortFrame h ign _

theorem frameShortAcReset (ign : BitVec 7) : Statement (.frameShortAcReset ign) := by
  intro cfg h _; exact decodeFrame_shortFrame h ign _

theorem frameShortUnknown (ign : BitVec 7) (code : Half) : Statement (.frameShortUnknown ign code) := by
  intro cfg _ h
  have h : cfg.shortOf? code = none := by simpa [Instr.wellFormed] using h
  simp [decodeWord, encodeWord, decodeFrame_frame8, h]

theorem frameState (f : StateFrame) : Statement (.frameState f) := by
  intro cfg _ _; exact decodeFrame_stateFrame cfg f

theorem classify (mark : Nat) (space : Nat) : Statement (.classify mark space) := fun _ _ _ => rfl

theorem asmHeader (r : Nat) : Statement (.asmHeader r) := fun _ _ _ => rfl

theorem asmInvalid (r : Nat) : Statement (.asmInvalid r) := fun _ _ _ => rfl

theorem asmEnd (r : Nat) : Statement (.asmEnd r) := fun _ _ _ => rfl

theorem asmBit0 (r : Nat) : Statement (.asmBit0 r) := fun _ _ _ => rfl

theorem asmBit1 (r : Nat) : Statement (.asmBit1 r) := fun _ _ _ => rfl

theorem decode (bytes : List Byte) (length : Nat) : Statement (.decode bytes length) := by
  intro cfg _ h
  have h : length ≤ bytes.length := by simpa [Instr.wellFormed] using h
  simp [decodeWord, encodeWord, Nat.not_lt.mpr h]

theorem encodeShort (c : ShortCommand) (capacity : Nat) : Statement (.encodeShort c capacity) := fun _ _ _ => rfl

theorem encodeState (c : StateCommand) (capacity : Nat) : Statement (.encodeState c capacity) := fun _ _ _ => rfl

theorem pulseEncode (data : List Byte) : Statement (.pulseEncode data) := fun _ _ _ => rfl

theorem rxPair (r : Nat) (mark : Nat) (space : Nat) : Statement (.rxPair r mark space) := fun _ _ _ => rfl

theorem rxGap (r : Nat) : Statement (.rxGap r) := fun _ _ _ => rfl

theorem txCommand (c : Command) : Statement (.txCommand c) := fun _ _ _ => rfl

theorem reset (r : Nat) : Statement (.reset r) := fun _ _ _ => rfl

end Sys2Proof.Laws.RoundTrip
end

