-- ==== Sys2Proof/Laws/Pulse.lean ====
section
/-! SUPPORT. The pulse sequence: its length, its pairs, and the symbols they classify as. -/

namespace Sys2Proof.Machine

theorem bitPairs_length (cfg : Config) (v : Byte) : (bitPairs cfg v).length = 8 := by simp [bitPairs]

theorem bytePairs_length (cfg : Config) (l : List Byte) : (l.flatMap (bitPairs cfg)).length = 8 * l.length := by
  induction l with
  | nil => rfl
  | cons v l ih => simp [bitPairs_length, ih]; omega

/-- Bit `k` of byte `j` of a byte string stands at pair `8 * j + k`. -/
theorem bytePairs_getElem (cfg : Config) (l : List Byte) (j k : Nat) (hj : j < l.length) (hk : k < 8) :
    (l.flatMap (bitPairs cfg))[8 * j + k]? = some (bitPair cfg ((byteAt l j).getLsbD k)) := by
  induction l generalizing j with
  | nil => simp at hj
  | cons v l ih =>
    rw [List.flatMap_cons]
    cases j with
    | zero =>
      rw [List.getElem?_append_left (by simp [bitPairs_length, hk])]
      simp [bitPairs, hk, byteAt]
    | succ j =>
      rw [List.getElem?_append_right (by simp [bitPairs_length]; omega), bitPairs_length,
        show 8 * (j + 1) + k - 8 = 8 * j + k by omega, ih j (by simpa using hj)]
      simp [byteAt]

theorem pulseSeq_length (cfg : Config) (data : List Byte) : (pulseSeq cfg data).length = 69 + 8 * data.length := by
  simp [pulseSeq, bytePairs_length, -List.length_flatMap]; omega

/-- The transmit header pair is a header (R243). -/
theorem classify_headerPair {cfg : Config} (h : cfg.durationsValid) : classify cfg.txHdrMark cfg.txHdrSpace = .header := by
  rw [classify, if_neg (by omega), if_pos (by simp only [HDR_MARK_THR, HDR_SPACE_THR]; omega)]

/-- The transmit bit pairs are their bits (R243). -/
theorem classify_bitPair {cfg : Config} (h : cfg.durationsValid) (b : Bool) :
    classify (bitPair cfg b).mark (bitPair cfg b).space = if b then .bit1 else .bit0 := by
  cases b <;> simp only [bitPair, classify, HDR_MARK_THR, HDR_SPACE_THR, MARK_US, MARK_TOL] <;>
    simp only [Bool.false_eq_true, if_false, if_true] <;> split_ifs <;> first | rfl | omega

/-- The symbols of a transmission: `H H BYTES(HDR_REPEAT) H` and then one frame (R102, R245). -/
theorem pulse_symbols {cfg : Config} (h : cfg.durationsValid) (data : List Byte) :
    (pulseSeq cfg data).map (fun p => classify p.mark p.space) =
      [.header, .header] ++ cfg.hdrRepeat.toList.flatMap byteSymbols ++ [.header] ++ frameSymbols data := by
  have hb : ∀ l : List Byte,
      (l.flatMap (bitPairs cfg)).map (fun p => classify p.mark p.space) = l.flatMap byteSymbols := by
    intro l
    rw [List.map_flatMap]
    congr 1; funext v
    simp only [bitPairs, byteSymbols, List.map_map]
    exact List.map_congr_left fun k _ => classify_bitPair h _
  simp only [pulseSeq, List.map_append, hb, List.map_cons, List.map_nil, headerPair, classify_headerPair h, endPair,
    frameSymbols, List.append_assoc]
  rfl

/-- A transmission through the assembler, from any registers: its bytes are reported at the last pair, and nothing
before (R245). -/
theorem feed_pulse {cfg : Config} (h : cfg.durationsValid) (data : List Byte) (a : FrameAssemblyState)
    (hn : data.length ≤ 19) (hw : a.buffer.wf = true) :
    ∃ b, feed cfg a ((pulseSeq cfg data).map (fun p => classify p.mark p.space)) =
        (b, List.replicate ((pulseSeq cfg data).length - 1) .none ++ [.frameComplete data.length data]) ∧
      b.quiescent = true := by
  rw [pulse_symbols h]
  obtain ⟨c, h1, h2, h3, h4, h5, h6⟩ :=
    feed_bytes cfg cfg.hdrRepeat.toList a.startFrame.startFrame rfl rfl (by simp) hw
  obtain ⟨b, k1, k2, k3⟩ := feed_frame cfg data c.startFrame hn h5
  refine ⟨b, ?_, k2⟩
  rw [feed_append, feed_append, feed_append]
  have e1 : feed cfg a [.header, .header] = (a.startFrame.startFrame, List.replicate 2 .none) := rfl
  have e2 : ∀ x, feed cfg x [.header] = (x.startFrame, List.replicate 1 .none) := fun _ => rfl
  simp only [e1, h1, e2, k1]
  congr 1
  rw [pulseSeq_length, ← List.append_assoc]
  congr 1
  rw [List.replicate_append_replicate, List.replicate_append_replicate, List.replicate_append_replicate]
  congr 1; simp; omega

end Sys2Proof.Machine
end

