-- ==== Sys2Proof/Tests/Slice0.lean ====
section
/-! SUPPORT. Tests: the checks of WellFormed, words written out from the spec's encodings, one step per test from the
spec's vectors (95_test_vectors.md, named in each comment), and a witness for the hypotheses of every statement that has
some. -/

namespace Sys2Proof.Tests

open Sys2Proof Sys2Proof.Machine

/-! ## Helpers -/

/-- The state an outcome goes on with. -/
def next? : Host.Outcome State Fault Refusal → Option State
  | .next t => some t
  | _ => none

/-- The outputs of an outcome that goes on. -/
def outputsOf : Host.Outcome State Fault Refusal → List Output
  | .next t => t.outputs
  | _ => []

/-- The streams of an outcome that goes on. -/
def streamsOf : Host.Outcome State Fault Refusal → List FrameAssemblyState
  | .next t => t.streams
  | _ => []

/-- A machine whose only stream has these registers. -/
def withStream (inFrame : Bool) (bitCount : Fin 8) (byteCount : Fin 20) (currentByte : Byte := 0) (buffer : Memory := []) :
    State :=
  { State.reset with streams := [{ inFrame, bitCount, byteCount, currentByte, buffer }] }

/-- The same under the literal reading of the error rows (D5). -/
def literal (s : State) : State := { s with cfg := { s.cfg with literalErrorRows := true } }

/-- V-DE1: the EIon frame. -/
def eionFrame : List Byte := [0x02, 0x20, 0xE0, 0x04, 0x80, 0x61, 0x33, 0x1A]
/-- V-DE3: a HeaderProbe frame. -/
def probeFrame : List Byte := [0x02, 0x20, 0xE0, 0x04, 0x00, 0x00, 0x00, 0x06]
/-- V-DE15: a State frame. -/
def stateFrame : List Byte :=
  [0x02, 0x20, 0xE0, 0x04, 0x00, 0x4F, 0x2A, 0x80, 0x43, 0x00, 0xE0, 0x81, 0x52, 0x00, 0x00, 0x80, 0xD0, 0x02, 0x47]
/-- V-DE15's command. -/
def stateCommand : StateCommand :=
  { mode := .heat, swing := .three, fan := .two, temperature := 21, power := true, onTimer := true, offTimer := true,
    onTime := 0x1E0, offTime := 0x528, time := 0x2D0, noTime := false }
/-- V-EN2's command. -/
def coolCommand : StateCommand :=
  { mode := .cool, swing := .auto, fan := .auto, temperature := 25, power := true, onTimer := false, offTimer := false,
    onTime := 0, offTime := 0, time := 0, noTime := true }
/-- V-DE23's and V-EN6's command. -/
def extremeCommand : StateCommand :=
  { mode := .auto, swing := .one, fan := .one, temperature := 0, power := false, onTimer := false, offTimer := false,
    onTime := 0xFFF, offTime := 0xFFF, time := 0xFFFF, noTime := false }

/-! ## WellFormed: an ill-formed term for each check, refused -/

theorem test_wf_symHeader_equal_mark_and_space : (Instr.symHeader 2701 2701).wellFormed Config.reference = false := by decide
theorem test_wf_symHeader_zero_space : (Instr.symHeader 3200 0).wellFormed Config.reference = false := by decide
theorem test_wf_symInvalid_bit_mark : (Instr.symInvalid 550 400).wellFormed Config.reference = false := by decide
theorem test_wf_symInvalid_header : (Instr.symInvalid 2701 2700).wellFormed Config.reference = false := by decide
theorem test_wf_symBit0_space : (Instr.symBit0 400 800).wellFormed Config.reference = false := by decide
theorem test_wf_symBit0_mark : (Instr.symBit0 551 400).wellFormed Config.reference = false := by decide
theorem test_wf_symBit1_space : (Instr.symBit1 400 799).wellFormed Config.reference = false := by decide
theorem test_wf_symBit1_header : (Instr.symBit1 400 1601).wellFormed Config.reference = false := by decide
theorem test_wf_frameShortUnknown_known_code :
    (Instr.frameShortUnknown 0 0x3361).wellFormed Config.reference = false := by decide
theorem test_wf_decode_operand_too_short : (Instr.decode [0x02] 2).wellFormed Config.reference = false := by decide
/-- R352 (1): a configuration with two equal mode codes is refused. -/
theorem test_wf_config_codes :
    ¬ Config.codesInjective { Config.reference with modes := { Config.reference.modes with dry := 0 } } := by decide
/-- R243: a bit mark outside 250..550 is refused. -/
theorem test_wf_config_durations : ¬ Config.durationsValid { Config.reference with txBitMark := 551 } := by decide

/-! ## Decode: a word written out for every constructor -/

/-- V-CL2, V-CL5, V-CL9, V-CL34, V-CL35. -/
theorem test_decode_pair_rows :
    decodeWord Config.reference (.pair 400 0) = .ok (.symEnd 400) ∧
    decodeWord Config.reference (.pair 3200 1600) = .ok (.symHeader 3200 1600) ∧
    decodeWord Config.reference (.pair 2701 2701) = .ok (.symInvalid 2701 2701) ∧
    decodeWord Config.reference (.pair 400 400) = .ok (.symBit0 400 400) ∧
    decodeWord Config.reference (.pair 400 1200) = .ok (.symBit1 400 1200) := by decide

/-- V-DE3, V-DE4, V-DE1, V-DE5, V-DE6. -/
theorem test_decode_short_frame_rows :
    decodeWord Config.reference (.frame probeFrame) = .ok (.frameHeaderProbe 0 0x00 0x00) ∧
    decodeWord Config.reference (.frame [0x02, 0x20, 0xE0, 0x04, 0x7F, 0x12, 0x34, 0xCB]) =
      .ok (.frameHeaderProbe 0x7F 0x12 0x34) ∧
    decodeWord Config.reference (.frame eionFrame) = .ok (.frameShortEion 0) ∧
    decodeWord Config.reference (.frame [0x02, 0x20, 0xE0, 0x04, 0xFF, 0x61, 0x33, 0x99]) = .ok (.frameShortEion 0x7F) ∧
    decodeWord Config.reference (.frame [0x02, 0x20, 0xE0, 0x04, 0x80, 0x00, 0x00, 0x86]) =
      .ok (.frameShortUnknown 0 0x0000) := by decide

/-- R83 with the eight open codes at the values of log 4; the checksum is `0x86 + code` (R211). -/
theorem test_decode_open_short_rows :
    decodeWord Config.reference (.frame [0x02, 0x20, 0xE0, 0x04, 0x80, 0x01, 0x00, 0x87]) = .ok (.frameShortPatrol 0) ∧
    decodeWord Config.reference (.frame [0x02, 0x20, 0xE0, 0x04, 0x80, 0x02, 0x00, 0x88]) = .ok (.frameShortQuiet 0) ∧
    decodeWord Config.reference (.frame [0x02, 0x20, 0xE0, 0x04, 0x80, 0x03, 0x00, 0x89]) = .ok (.frameShortPowerful 0) ∧
    decodeWord Config.reference (.frame [0x02, 0x20, 0xE0, 0x04, 0x80, 0x04, 0x00, 0x8A]) = .ok (.frameShortCheck 0) ∧
    decodeWord Config.reference (.frame [0x02, 0x20, 0xE0, 0x04, 0x80, 0x05, 0x00, 0x8B]) = .ok (.frameShortSetAir1 0) ∧
    decodeWord Config.reference (.frame [0x02, 0x20, 0xE0, 0x04, 0x80, 0x06, 0x00, 0x8C]) = .ok (.frameShortSetAir2 0) ∧
    decodeWord Config.reference (.frame [0x02, 0x20, 0xE0, 0x04, 0x80, 0x07, 0x00, 0x8D]) = .ok (.frameShortSetAir3 0) ∧
    decodeWord Config.reference (.frame [0x02, 0x20, 0xE0, 0x04, 0x80, 0x08, 0x00, 0x8E]) = .ok (.frameShortAcReset 0) := by
  decide

/-- V-DE15, field by field (R84). -/
theorem test_decode_state_row :
    decodeWord Config.reference (.frame stateFrame) = .ok (.frameState
      { byte4 := 0, modeCode := 4, byte5bit3 := true, offTimer := true, onTimer := true, power := true, byte6hi := 0,
        temperature := 21, byte6bit0 := false, byte7 := 0x80, fanCode := 4, swingCode := 3, byte9 := 0, onTime := 0x1E0,
        offTime := 0x528, byte13 := 0, byte14 := 0, byte15hi := 0x40, noTime := false, time := 0x2D0 }) := by decide

/-- R110: the port selects the operation. -/
theorem test_decode_operations :
    decodeWord Config.reference (.classify 400 800) = .ok (.classify 400 800) ∧
    decodeWord Config.reference (.symbol 0 .header) = .ok (.asmHeader 0) ∧
    decodeWord Config.reference (.symbol 0 .invalid) = .ok (.asmInvalid 0) ∧
    decodeWord Config.reference (.symbol 0 .endFrame) = .ok (.asmEnd 0) ∧
    decodeWord Config.reference (.symbol 0 .bit0) = .ok (.asmBit0 0) ∧
    decodeWord Config.reference (.symbol 1 .bit1) = .ok (.asmBit1 1) ∧
    decodeWord Config.reference (.decode eionFrame 8) = .ok (.decode eionFrame 8) ∧
    decodeWord Config.reference (.encode (.short .eion) 8) = .ok (.encodeShort .eion 8) ∧
    decodeWord Config.reference (.encode (.state coolCommand) 19) = .ok (.encodeState coolCommand 19) ∧
    decodeWord Config.reference (.pulseEncode eionFrame) = .ok (.pulseEncode eionFrame) ∧
    decodeWord Config.reference (.rxPair 0 400 0) = .ok (.rxPair 0 400 0) ∧
    decodeWord Config.reference (.rxGap 0) = .ok (.rxGap 0) ∧
    decodeWord Config.reference (.txCommand (.short .eion)) = .ok (.txCommand (.short .eion)) ∧
    decodeWord Config.reference (.reset 0) = .ok (.reset 0) := by decide

/-- V-DE2, V-DE7, V-DE12 and U6: words that are no instruction, by name. -/
theorem test_decode_rejects :
    decodeWord Config.reference (.frame [0x02, 0x20, 0xE0, 0x04, 0x80, 0x61, 0x33, 0x00]) =
      .error (.frame .invalidChecksum) ∧
    decodeWord Config.reference (.frame [0x03, 0x20, 0xE0, 0x04, 0x80, 0x61, 0x33, 0x1B]) =
      .error (.frame .invalidHeader) ∧
    decodeWord Config.reference (.frame [0xFF]) = .error (.frame .invalidLength) ∧
    decodeWord Config.reference (.decode [0x02] 8) = .error .operandTooShort := by decide

/-- V-DE1 as a table word: byte 0 is the least significant. -/
theorem test_decodeTableWord : decodeTableWord 64 0x1A33618004E02002 = some (.frameShortEion 0) := by decide

/-- V-DE1 as the next word of the reset machine runs as the very next step (log 1). -/
theorem test_withFetchWord :
    outputsOf (step (State.reset.withFetchWord 64 0x1A33618004E02002)) = [.decoded (.cmd (.short .eion))] := by decide

/-! ## Pulse Classifier -/

/-- V-CL1, V-CL3, V-CL7, V-CL9, V-CL10, V-CL11, V-CL14, V-CL15: the header thresholds and the order. -/
theorem test_classify_header_edges :
    outputsOf (exec (.classify 0 0) State.reset) = [.symbol .endFrame] ∧
    outputsOf (exec (.classify 5000 0) State.reset) = [.symbol .endFrame] ∧
    outputsOf (exec (.classify 2701 2700) State.reset) = [.symbol .header] ∧
    outputsOf (exec (.classify 2701 2701) State.reset) = [.symbol .invalid] ∧
    outputsOf (exec (.classify 2701 2702) State.reset) = [.symbol .header] ∧
    outputsOf (exec (.classify 2700 2699) State.reset) = [.symbol .invalid] ∧
    outputsOf (exec (.classify 400 1601) State.reset) = [.symbol .header] ∧
    outputsOf (exec (.classify 400 1600) State.reset) = [.symbol .bit1] := by decide

/-- V-CL26 to V-CL33, V-CL36 to V-CL38: the mark window and the boundary `2 * mark`. -/
theorem test_classify_bit_edges :
    outputsOf (exec (.classify 249 400) State.reset) = [.symbol .invalid] ∧
    outputsOf (exec (.classify 250 499) State.reset) = [.symbol .bit0] ∧
    outputsOf (exec (.classify 250 500) State.reset) = [.symbol .bit1] ∧
    outputsOf (exec (.classify 550 1099) State.reset) = [.symbol .bit0] ∧
    outputsOf (exec (.classify 550 1100) State.reset) = [.symbol .bit1] ∧
    outputsOf (exec (.classify 551 400) State.reset) = [.symbol .invalid] ∧
    outputsOf (exec (.classify 400 799) State.reset) = [.symbol .bit0] ∧
    outputsOf (exec (.classify 400 800) State.reset) = [.symbol .bit1] ∧
    outputsOf (exec (.classify 400 939) State.reset) = [.symbol .bit1] := by decide

/-- V-CL2, V-CL6, V-CL12, V-CL43, V-CL31, as SYM rows. -/
theorem test_symbol_rows :
    outputsOf (exec (.symEnd 400) State.reset) = [.symbol .endFrame] ∧
    outputsOf (exec (.symHeader 3500 1750) State.reset) = [.symbol .header] ∧
    outputsOf (exec (.symInvalid 2700 1000) State.reset) = [.symbol .invalid] ∧
    outputsOf (exec (.symBit0 400 1) State.reset) = [.symbol .bit0] ∧
    outputsOf (exec (.symBit1 550 1100) State.reset) = [.symbol .bit1] := by decide

/-! ## Frame Assembler -/

/-- R151's example: (in-frame, 3, 5) and `H`. -/
theorem test_asmHeader :
    next? (exec (.asmHeader 0) (withStream true 3 5 0x55)) =
      some { withStream true 0 0 0x55 with outputs := [.asm .none] } := by decide

/-- R152's example: (in-frame, 2, 8) and `X`. -/
theorem test_asmInvalid :
    next? (exec (.asmInvalid 0) (withStream true 2 8 0x55)) =
      some { withStream false 0 0 0x55 with outputs := [.asm (.fail .invalidSymbol)] } := by decide

/-- V-AS21. -/
theorem test_asmEnd_mid_byte :
    next? (exec (.asmEnd 0) (withStream true 3 5)) =
      some { withStream false 0 0 with outputs := [.asm (.fail .incompleteByte)] } := by decide

/-- V-AS22. -/
theorem test_asmEnd_complete :
    outputsOf (exec (.asmEnd 0) (withStream true 0 5 0 [(0, 1), (1, 2), (2, 3), (3, 4), (4, 5)])) =
      [.asm (.frameComplete 5 [0x01, 0x02, 0x03, 0x04, 0x05])] := by decide

/-- P3, position 11 to 12: a 0 bit clears its own position and no other. -/
theorem test_asmBit0 :
    next? (exec (.asmBit0 0) (withStream true 3 1 0xC9)) =
      some { withStream true 4 1 0xC1 with outputs := [.asm .none] } := by decide

/-- P4: the last bit of the twentieth byte overflows. -/
theorem test_asmBit0_overflow :
    next? (exec (.asmBit0 0) (withStream true 7 19 0x55)) =
      some { withStream false 0 0 0x55 with outputs := [.asm (.fail .overflow)] } := by decide

/-- V-AS24: the byte completes at index 18. -/
theorem test_asmBit1_completes :
    next? (exec (.asmBit1 0) (withStream true 7 18 0x55)) =
      some { withStream true 0 19 0xD5 [(18, 0xD5)] with outputs := [.asm .none] } := by decide

/-- R155: a data bit while idle changes nothing. -/
theorem test_asmBit1_idle :
    next? (exec (.asmBit1 0) (withStream false 0 0 0xC1)) =
      some { withStream false 0 0 0xC1 with outputs := [.asm .none] } := by decide

/-- The note under V-AS24: under the literal reading `byte_count` survives an Invalid symbol (D5). -/
theorem test_literal_error_rows :
    next? (exec (.asmInvalid 0) (literal (withStream true 0 1 0xFF [(0, 0xFF)]))) =
      some (literal { withStream false 0 1 0xFF [(0, 0xFF)] with outputs := [.asm (.fail .invalidSymbol)] }) := by decide

/-- R350: RESET emits nothing and idles the stream (its buffer is a free value and is not looked at). -/
theorem test_reset :
    outputsOf (exec (.reset 0) (withStream true 3 5 0x55)) = [] ∧
    (streamsOf (exec (.reset 0) (withStream true 3 5 0x55))).map (fun a => (a.inFrame, a.bitCount, a.byteCount)) =
      [(false, 0, 0)] ∧
    (streamsOf (exec (.reset 0) (withStream true 3 5 0x55))).map (fun a => a.currentByte) = [0x00] := by decide

/-- A receiver the system does not have (log 14). -/
theorem test_unknown_receiver : next? (exec (.asmHeader 1) State.reset) = none := by decide

/-! ## Frame Codec -/

/-- V-DE1, V-DE4, V-DE6, V-DE7, V-DE8, V-DE11. -/
theorem test_decode_short :
    outputsOf (exec (.decode eionFrame 8) State.reset) = [.decoded (.cmd (.short .eion))] ∧
    outputsOf (exec (.decode [0x02, 0x20, 0xE0, 0x04, 0x7F, 0x12, 0x34, 0xCB] 8) State.reset) = [.decoded .headerProbe] ∧
    outputsOf (exec (.decode [0x02, 0x20, 0xE0, 0x04, 0x80, 0x00, 0x00, 0x86] 8) State.reset) =
      [.decoded (.err .unknownCommand)] ∧
    outputsOf (exec (.decode [0x03, 0x20, 0xE0, 0x04, 0x80, 0x61, 0x33, 0x1B] 8) State.reset) =
      [.decoded (.err .invalidHeader)] ∧
    outputsOf (exec (.decode [0x03, 0x20, 0xE0, 0x04, 0x80, 0x61, 0x33, 0x00] 8) State.reset) =
      [.decoded (.err .invalidChecksum)] ∧
    outputsOf (exec (.decode [] 0) State.reset) = [.decoded (.err .invalidLength)] := by decide

/-- V-DE15, V-DE19, V-DE20, V-DE18. -/
theorem test_decode_state :
    outputsOf (exec (.decode stateFrame 19) State.reset) = [.decoded (.cmd (.state stateCommand))] ∧
    outputsOf (exec (.decode (((stateFrame.set 5 0x1F).set 8 0x00).set 18 0xD4) 19) State.reset) =
      [.decoded (.err (.invalidField .mode))] ∧
    outputsOf (exec (.decode ((stateFrame.set 8 0x00).set 18 0x04) 19) State.reset) =
      [.decoded (.err (.invalidField .swing))] ∧
    outputsOf (exec (.decode ((stateFrame.set 8 0x03).set 18 0x07) 19) State.reset) =
      [.decoded (.err (.invalidField .fan))] := by decide

/-- V-DE3, V-DE1, V-DE6 and V-DE15 as frame rows. -/
theorem test_frame_rows :
    outputsOf (exec (.frameHeaderProbe 0 0 0) State.reset) = [.decoded .headerProbe] ∧
    outputsOf (exec (.frameShortEion 0) State.reset) = [.decoded (.cmd (.short .eion))] ∧
    outputsOf (exec (.frameShortUnknown 0 0x0000) State.reset) = [.decoded (.err .unknownCommand)] ∧
    outputsOf (exec (.frameState (StateFrame.ofBytes stateFrame)) State.reset) =
      [.decoded (.cmd (.state stateCommand))] := by decide

/-- R185: each short frame row is its command. -/
theorem test_open_short_rows :
    outputsOf (exec (.frameShortPatrol 0) State.reset) = [.decoded (.cmd (.short .patrol))] ∧
    outputsOf (exec (.frameShortQuiet 0) State.reset) = [.decoded (.cmd (.short .quiet))] ∧
    outputsOf (exec (.frameShortPowerful 0) State.reset) = [.decoded (.cmd (.short .powerful))] ∧
    outputsOf (exec (.frameShortCheck 0) State.reset) = [.decoded (.cmd (.short .check))] ∧
    outputsOf (exec (.frameShortSetAir1 0) State.reset) = [.decoded (.cmd (.short .setAir1))] ∧
    outputsOf (exec (.frameShortSetAir2 0) State.reset) = [.decoded (.cmd (.short .setAir2))] ∧
    outputsOf (exec (.frameShortSetAir3 0) State.reset) = [.decoded (.cmd (.short .setAir3))] ∧
    outputsOf (exec (.frameShortAcReset 0) State.reset) = [.decoded (.cmd (.short .acReset))] := by decide

/-- V-EN10 and V-EN9. -/
theorem test_encodeShort :
    outputsOf (exec (.encodeShort .eion 8) State.reset) = [.encoded (.ok eionFrame 8)] ∧
    outputsOf (exec (.encodeShort .eion 7) State.reset) = [.encoded (.err .bufferTooSmall)] := by decide

/-- V-EN2, V-EN7, V-EN11. -/
theorem test_encodeState :
    outputsOf (exec (.encodeState coolCommand 19) State.reset) = [.encoded (.ok
      [0x02, 0x20, 0xE0, 0x04, 0x00, 0x39, 0x32, 0x80, 0xAF, 0x00, 0x00, 0x06, 0x60, 0x00, 0x00, 0x81, 0x00, 0x00, 0x87] 19)] ∧
    outputsOf (exec (.encodeState
      { mode := .fan, swing := .five, fan := .five, temperature := 31, power := true, onTimer := false, offTimer := true,
        onTime := 0xABC, offTime := 0x123, time := 1, noTime := false } 19) State.reset) = [.encoded (.ok
      [0x02, 0x20, 0xE0, 0x04, 0x00, 0x6D, 0x3E, 0x80, 0x75, 0x00, 0xBC, 0x3A, 0x12, 0x00, 0x00, 0x80, 0x01, 0x00, 0x2F] 19)] ∧
    outputsOf (exec (.encodeState coolCommand 18) State.reset) = [.encoded (.err .bufferTooSmall)] := by decide

/-- V-EN4 and V-EN8: the collapse with `time = 0`, and the dropped bits 15:12. -/
theorem test_encodeState_timers :
    outputsOf (exec (.encodeState { stateCommand with time := 0 } 19) State.reset) = [.encoded (.ok
      [0x02, 0x20, 0xE0, 0x04, 0x00, 0x4F, 0x2A, 0x80, 0x43, 0x00, 0x00, 0x06, 0x60, 0x00, 0x00, 0x80, 0x00, 0x00, 0x28] 19)] ∧
    outputsOf (exec (.encodeState { stateCommand with onTime := 0xF1E0, offTime := 0x1528 } 19) State.reset) =
      [.encoded (.ok stateFrame 19)] := by decide

/-! ## Pulse Encoder and pipelines -/

/-- V-PE1's payload bits, the first-sent bit first. -/
def payloadBits : List Nat :=
  [0,1,0,0,0,0,0,0, 0,0,0,0,0,1,0,0, 0,0,0,0,0,1,1,1, 0,0,1,0,0,0,0,0] ++
  [0,0,0,0,0,0,0,1, 1,0,0,0,0,1,1,0, 1,1,0,0,1,1,0,0, 0,1,0,1,1,0,0,0]

/-- The pairs of an outcome's first output. -/
def pairsOf : Host.Outcome State Fault Refusal → PulseSeq
  | .next t =>
    match t.outputs with
    | .pulses p :: _ => p
    | .tx (.pulses p) :: _ => p
    | _ => []
  | _ => []

/-- V-PE1: the payload pairs and the end pair. -/
theorem test_pulseEncode :
    (pairsOf (exec (.pulseEncode eionFrame) State.reset)).drop 68 =
      payloadBits.map (fun b => ⟨400, if b = 1 then 1200 else 400⟩) ++ [⟨400, 0⟩] := by decide

/-- V-PE1: the header pairs and the first bits of HDR_REPEAT; R247's duration of this transmission. -/
theorem test_pulseEncode_headers :
    (pairsOf (exec (.pulseEncode eionFrame) State.reset)).take 6 =
      [⟨3200, 1600⟩, ⟨3200, 1600⟩, ⟨400, 400⟩, ⟨400, 1200⟩, ⟨400, 400⟩, ⟨400, 400⟩] ∧
    ((pairsOf (exec (.pulseEncode eionFrame) State.reset)).drop 66).take 3 =
      [⟨3200, 1600⟩, ⟨3200, 1600⟩, ⟨400, 400⟩] ∧
    totalDuration (pairsOf (exec (.pulseEncode eionFrame) State.reset)) = 142000 := by decide +kernel

/-- V-RX2 and V-RX3. -/
theorem test_rxPair :
    outputsOf (exec (.rxPair 0 600 700) State.reset) = [.rx (.err (.frame .invalidSymbol))] ∧
    outputsOf (exec (.rxPair 0 400 400) State.reset) = [.rx .noEvent] := by decide

/-- R260's example: the EIon frame closed by a zero-space pair. -/
theorem test_rxPair_end :
    next? (exec (.rxPair 0 400 0) (withStream true 0 8 0x1A
      [(0, 0x02), (1, 0x20), (2, 0xE0), (3, 0x04), (4, 0x80), (5, 0x61), (6, 0x33), (7, 0x1A)])) =
      some { withStream false 0 0 0x1A
          [(0, 0x02), (1, 0x20), (2, 0xE0), (3, 0x04), (4, 0x80), (5, 0x61), (6, 0x33), (7, 0x1A)] with
        outputs := [.rx (.cmd (.short .eion))] } := by decide

/-- V-RX1. -/
theorem test_rxGap : outputsOf (exec (.rxGap 0) State.reset) = [.rx (.err (.decode .invalidLength))] := by decide

/-- V-RX7: the pairs of V-PE1. -/
theorem test_txCommand :
    (pairsOf (exec (.txCommand (.short .eion)) State.reset)).drop 68 =
      payloadBits.map (fun b => ⟨400, if b = 1 then 1200 else 400⟩) ++ [⟨400, 0⟩] := by decide

/-- U22: a transmit capacity below 8 blocks the transmission (log 21). -/
theorem test_txCommand_blocked :
    outputsOf (exec (.txCommand (.short .eion)) { State.reset with cfg := { Config.reference with txCapacity := 7 } }) =
      [.tx (.err .bufferTooSmall)] := by decide

/-! ## The step -/

/-- With no input the block waits (log 25). -/
theorem test_step_waits : next? (step State.reset) = some State.reset := by decide

/-- V-RX1 and V-DE2 through the inputs, one step: the oldest input is taken, the other stays. -/
theorem test_step_takes_the_oldest :
    next? (step (State.reset.present [.rxGap 0, .frame [0x02, 0x20, 0xE0, 0x04, 0x80, 0x61, 0x33, 0x00]])) =
      some { State.reset with
        inputs := [.frame [0x02, 0x20, 0xE0, 0x04, 0x80, 0x61, 0x33, 0x00]]
        outputs := [.rx (.err (.decode .invalidLength))] } := by decide

/-! ## The host contract -/

/-- R287: the clamp to `[0, 31]`; R290: the literal `off`. -/
theorem test_host_clamp_and_text :
    clampTemperature (-3) = 0 ∧ clampTemperature 31 = 31 ∧ clampTemperature 40 = 31 ∧
    serializeState (.state { coolCommand with power := false }) =
      some { mode := "off", temperature := 25, fan := "auto", swing := "auto" } := by decide

/-- R291: an unknown string is rejected. -/
theorem test_host_rejects_unknown_text : requestMode Config.reference ⟨.state coolCommand⟩ true "warm" = none := by decide

/-- R291: a request whose encode errs is rejected and nothing is mutated; the same request runs where it does not. -/
theorem test_host_rejects_encode_error :
    requestTemperature { Config.reference with txCapacity := 18 } ⟨.state coolCommand⟩ 20 = none ∧
    (requestTemperature Config.reference ⟨.state coolCommand⟩ 20).map (fun p => p.1) =
      some ⟨.state { coolCommand with temperature := 20 }⟩ := by decide

/-- R282, R283: a batch of pairs in capture order, then a wait that timed out, then a zero-length wakeup. -/
theorem test_host_receive_loop :
    receiveLoop 0 [some [⟨3200, 1600⟩, ⟨400, 400⟩], none, some []] =
      [.rxPair 0 3200 1600, .rxPair 0 400 400, .rxGap 0, .rxGap 0] := by decide

/-- R283: a host that gives one pair and then only RX_GAP keeps its duty; one that falls silent after the pair does not. -/
theorem test_host_gap_duty :
    Schedule.gapDuty (fun n => if n = 0 then some (.rxPair 0 400 400) else some (.rxGap 0)) 0 ∧
    ¬ Schedule.gapNotWithheld (fun n => if n = 0 then some (.rxPair 0 400 400) else none) 0 := by
  refine ⟨fun n _ => ⟨n + 1, by omega, .inl (by simp)⟩, fun h => ?_⟩
  obtain ⟨m, hm, hg | ⟨_, _, hp⟩⟩ := h 0 400 400 (by simp) (by decide)
  · simp [show m ≠ 0 by omega] at hg
  · simp [show m ≠ 0 by omega] at hp

/-! ## Witnesses: for every statement with hypotheses, a state and operands that meet them -/

/-- SymbolRowsOutputTheirSymbol: a pair at the edge of each region. -/
theorem witness_symbol_rows :
    (Instr.symHeader 400 1601).wellFormed State.reset.cfg = true ∧ (Instr.symHeader 2701 1).wellFormed State.reset.cfg = true ∧
    (Instr.symInvalid 249 400).wellFormed State.reset.cfg = true ∧
    (Instr.symBit0 250 499).wellFormed State.reset.cfg = true ∧
    (Instr.symBit1 550 1600).wellFormed State.reset.cfg = true := by decide

/-- AsmHeaderStartsAFrame, AsmEndClosesTheFrame (both clauses), RxPairComposes, RxGapIsAnEndSymbol, ResetIdlesOneStream. -/
theorem witness_stream :
    (withStream true 0 19).streams[0]? = some ⟨true, 0, 19, 0, []⟩ ∧
    (withStream true 7 19).streams[0]? = some ⟨true, 7, 19, 0, []⟩ := by decide

/-- AsmInvalidFailsAndIdles. -/
theorem witness_asm_invalid :
    State.reset.cfg.literalErrorRows = false ∧ State.reset.streams[0]? = some FrameAssemblyState.reset := by decide

/-- DataBitAccumulates, at the last accumulating bit. -/
theorem witness_data_bit :
    (withStream true 6 19).streams[0]? = some ⟨true, 6, 19, 0, []⟩ ∧ ((6 : Fin 8).val < 7) := by decide

/-- EighthBitStoresTheByte, at the last byte that fits. -/
theorem witness_eighth_bit :
    (withStream true 7 18).streams[0]? = some ⟨true, 7, 18, 0, []⟩ ∧ ((18 : Fin 20).val < 19) ∧
    Memory.wf [] = true := by decide

/-- TwentiethByteOverflows. -/
theorem witness_overflow :
    (withStream true 7 19).cfg.literalErrorRows = false ∧ (withStream true 7 19).streams[0]? = some ⟨true, 7, 19, 0, []⟩ := by
  decide

/-- IdleDataBitIsIgnored. -/
theorem witness_idle_bit : (withStream false 0 0 0xC1).streams[0]? = some ⟨false, 0, 0, 0xC1, []⟩ := by decide

/-- LiteralErrorRowsWriteInFrameAlone, both clauses. -/
theorem witness_literal :
    (literal (withStream true 7 19)).cfg.literalErrorRows = true ∧
    (literal (withStream true 7 19)).streams[0]? = some ⟨true, 7, 19, 0, []⟩ := by decide

/-- AssemblerEventsLeaveItIdle: every symbol has a next state. -/
theorem witness_events :
    (withStream true 7 19).cfg.literalErrorRows = false ∧
    [Symbol.header, .bit0, .bit1, .endFrame, .invalid].all
      (fun y => (next? (exec (decodeSymbol 0 y) (withStream true 7 19))).isSome) = true := by decide

/-- AssemblerIgnoresByteContent: both runs have a next state, with differing bytes. -/
theorem witness_byte_content :
    (withStream true 7 18).streams[0]? = some ⟨true, 7, 18, 0, []⟩ ∧
    (next? (exec (decodeSymbol 0 .bit1) (withStream true 7 18))).isSome = true ∧
    (next? (exec (decodeSymbol 0 .bit1) ((withStream true 7 18).setStream 0 ⟨true, 7, 18, 0xAA, [(0, 1)]⟩))).isSome = true := by
  decide

/-- HiddenStateIsNeverRevealed: two streams that differ in every hidden place. -/
theorem witness_hidden :
    (withStream true 3 1 0x05 [(0, 0xCD)]).streams[0]? = some ⟨true, 3, 1, 0x05, [(0, 0xCD)]⟩ ∧
    FrameAssemblyState.sameVisible ⟨true, 3, 1, 0x05, [(0, 0xCD)]⟩ ⟨true, 3, 1, 0xF5, [(0, 0xCD), (7, 0x99)]⟩ ∧
    Memory.wf [(0, 0xCD)] = true ∧ Memory.wf [(0, 0xCD), (7, 0x99)] = true ∧
    (next? (exec (.rxPair 0 400 400) (withStream true 3 1 0x05 [(0, 0xCD)]))).isSome = true ∧
    (next? (exec (.rxPair 0 400 400)
      ((withStream true 3 1 0x05 [(0, 0xCD)]).setStream 0 ⟨true, 3, 1, 0xF5, [(0, 0xCD), (7, 0x99)]⟩))).isSome = true := by
  decide

/-- FramedBytesAreReported, at the longest frame and at none. -/
theorem witness_framed_bytes :
    (withStream true 3 5).streams[0]? = some ⟨true, 3, 5, 0, []⟩ ∧ Memory.wf [] = true ∧ stateFrame.length ≤ 19 ∧
    ([] : List Byte).length ≤ 19 ∧
    ((withStream true 3 5).present ((frameSymbols stateFrame).map (PortWord.symbol 0) ++ [.rxGap 0])).inputs =
      (frameSymbols stateFrame).map (PortWord.symbol 0) ++ [.rxGap 0] :=
  ⟨by decide, by decide, by decide, by decide, rfl⟩

/-- StreamOperationsAreLocal: each of its four forms has a next state. -/
theorem witness_stream_operations :
    (next? (exec (decodeSymbol 0 .header) State.reset)).isSome = true ∧
    (next? (exec (.rxPair 0 400 400) State.reset)).isSome = true ∧ (next? (exec (.rxGap 0) State.reset)).isSome = true ∧
    (next? (exec (.reset 0) State.reset)).isSome = true := by decide

/-- Two receivers. -/
def twoStreams : State := { State.reset with streams := [FrameAssemblyState.reset, FrameAssemblyState.reset] }

/-- StepsOfDifferentStreamsCommute: all four steps have a next state. -/
theorem witness_commute :
    ((next? (exec (decodeSymbol 0 .header) twoStreams)).bind fun t => next? (exec (decodeSymbol 1 .endFrame) t)).isSome = true ∧
    ((next? (exec (decodeSymbol 1 .endFrame) twoStreams)).bind fun t => next? (exec (decodeSymbol 0 .header) t)).isSome = true := by
  decide

/-- PureOperationsIgnoreTheStreams: each of its forms has a next state. -/
theorem witness_pure :
    (next? (exec (.classify 400 400) State.reset)).isSome = true ∧ (next? (exec (.decode eionFrame 8) State.reset)).isSome = true ∧
    (next? (exec (encodeInstr (.short .eion) 8) State.reset)).isSome = true ∧
    (next? (exec (encodeInstr (.state coolCommand) 19) State.reset)).isSome = true ∧
    (next? (exec (.pulseEncode eionFrame) State.reset)).isSome = true := by decide

/-- DecodeReportsTheFirstFailingCheck: lengths 7, 9, 18 and 20; a wrong checksum; a wrong header, at both lengths. -/
theorem witness_first_check :
    (7 ≤ stateFrame.length ∧ 18 ≤ stateFrame.length ∧ 20 ≤ (stateFrame ++ [0]).length) ∧
    checksumOf (eionFrame.set 7 0x00) 7 ≠ (byteAt (eionFrame.set 7 0x00) 7).toNat ∧
    checksumOf (stateFrame.set 18 0x00) 18 ≠ (byteAt (stateFrame.set 18 0x00) 18).toNat ∧
    (checksumOf (List.replicate 8 (0 : Byte)) 7 = (byteAt (List.replicate 8 (0 : Byte)) 7).toNat ∧
      (List.replicate 8 (0 : Byte)).take 4 ≠ [0x02, 0x20, 0xE0, 0x04]) ∧
    (checksumOf (List.replicate 19 (0 : Byte)) 18 = (byteAt (List.replicate 19 (0 : Byte)) 18).toNat ∧
      (List.replicate 19 (0 : Byte)).take 4 ≠ [0x02, 0x20, 0xE0, 0x04]) := by decide

/-- DecodeRecognisesHeaderProbe: V-DE4. -/
theorem witness_header_probe :
    passesChecks [0x02, 0x20, 0xE0, 0x04, 0x7F, 0x12, 0x34, 0xCB] 8 ∧
    (byteAt [0x02, 0x20, 0xE0, 0x04, 0x7F, 0x12, 0x34, 0xCB] 4).getLsbD 7 = false := by decide

/-- DecodeMatchesTheShortCode, both clauses: V-DE1 and V-DE6. -/
theorem witness_short_code :
    (passesChecks eionFrame 8 ∧ (byteAt eionFrame 4).getLsbD 7 = true ∧ State.reset.cfg.codesInjective ∧
      (byteAt eionFrame 5).toNat + 256 * (byteAt eionFrame 6).toNat = (State.reset.cfg.shortCode .eion).toNat) ∧
    (passesChecks [0x02, 0x20, 0xE0, 0x04, 0x80, 0x00, 0x00, 0x86] 8 ∧
      (byteAt [0x02, 0x20, 0xE0, 0x04, 0x80, 0x00, 0x00, 0x86] 4).getLsbD 7 = true ∧
      ∀ c ∈ ShortCommand.all, (byteAt [0x02, 0x20, 0xE0, 0x04, 0x80, 0x00, 0x00, 0x86] 5).toNat +
        256 * (byteAt [0x02, 0x20, 0xE0, 0x04, 0x80, 0x00, 0x00, 0x86] 6).toNat ≠ (State.reset.cfg.shortCode c).toNat) := by
  decide

/-- DecodeExtractsTheStateFields, the four clauses: V-DE16, V-DE17, V-DE18, V-DE15. -/
theorem witness_state_fields :
    (passesChecks ((stateFrame.set 5 0x1F).set 18 0x17) 19 ∧
      ∀ m ∈ Mode.all, State.reset.cfg.modeCode m ≠ (byteAt ((stateFrame.set 5 0x1F).set 18 0x17) 5 >>> 4).setWidth 4) ∧
    (passesChecks ((stateFrame.set 8 0x40).set 18 0x44) 19 ∧
      State.reset.cfg.modeCode .heat = (byteAt ((stateFrame.set 8 0x40).set 18 0x44) 5 >>> 4).setWidth 4 ∧
      ∀ w ∈ Swing.all, State.reset.cfg.swingCode w ≠ (byteAt ((stateFrame.set 8 0x40).set 18 0x44) 8 &&& 0x0F).setWidth 4) ∧
    (passesChecks ((stateFrame.set 8 0x03).set 18 0x07) 19 ∧
      State.reset.cfg.swingCode .three = (byteAt ((stateFrame.set 8 0x03).set 18 0x07) 8 &&& 0x0F).setWidth 4 ∧
      ∀ f ∈ Fan.all, State.reset.cfg.fanCode f ≠ (byteAt ((stateFrame.set 8 0x03).set 18 0x07) 8 >>> 4).setWidth 4) ∧
    (passesChecks stateFrame 19 ∧ State.reset.cfg.codesInjective ∧
      State.reset.cfg.modeCode .heat = (byteAt stateFrame 5 >>> 4).setWidth 4 ∧
      State.reset.cfg.swingCode .three = (byteAt stateFrame 8 &&& 0x0F).setWidth 4 ∧
      State.reset.cfg.fanCode .two = (byteAt stateFrame 8 >>> 4).setWidth 4) := by decide

/-- DecodeIgnoresTheUnusedBits, both clauses: V-DE1 and V-DE5; V-DE15 and V-DE22. -/
theorem witness_unused_bits :
    (passesChecks eionFrame 8 ∧ passesChecks [0x02, 0x20, 0xE0, 0x04, 0xFF, 0x61, 0x33, 0x99] 8 ∧
      byteAt eionFrame 4 &&& 0x80 = byteAt [0x02, 0x20, 0xE0, 0x04, 0xFF, 0x61, 0x33, 0x99] 4 &&& 0x80 ∧
      byteAt eionFrame 5 = byteAt [0x02, 0x20, 0xE0, 0x04, 0xFF, 0x61, 0x33, 0x99] 5 ∧
      byteAt eionFrame 6 = byteAt [0x02, 0x20, 0xE0, 0x04, 0xFF, 0x61, 0x33, 0x99] 6) ∧
    (passesChecks stateFrame 19 ∧ passesChecks ((stateFrame.set 5 0x47).set 18 0x3F) 19 ∧
      byteAt stateFrame 5 &&& 0xF7 = byteAt ((stateFrame.set 5 0x47).set 18 0x3F) 5 &&& 0xF7 ∧
      byteAt stateFrame 6 &&& 0x3E = byteAt ((stateFrame.set 5 0x47).set 18 0x3F) 6 &&& 0x3E ∧
      byteAt stateFrame 8 = byteAt ((stateFrame.set 5 0x47).set 18 0x3F) 8 ∧
      byteAt stateFrame 10 = byteAt ((stateFrame.set 5 0x47).set 18 0x3F) 10 ∧
      byteAt stateFrame 11 = byteAt ((stateFrame.set 5 0x47).set 18 0x3F) 11 ∧
      byteAt stateFrame 12 = byteAt ((stateFrame.set 5 0x47).set 18 0x3F) 12 ∧
      byteAt stateFrame 15 &&& 0x01 = byteAt ((stateFrame.set 5 0x47).set 18 0x3F) 15 &&& 0x01 ∧
      byteAt stateFrame 16 = byteAt ((stateFrame.set 5 0x47).set 18 0x3F) 16 ∧
      byteAt stateFrame 17 = byteAt ((stateFrame.set 5 0x47).set 18 0x3F) 17) := by decide

/-- SingleByteChangeFailsTheChecksum: the first and the last byte of S3's frame. -/
theorem witness_single_byte :
    eionFrame.length = 8 ∧ checksumOf eionFrame (eionFrame.length - 1) = (byteAt eionFrame (eionFrame.length - 1)).toNat ∧
    (0 < eionFrame.length ∧ (0x03 : Byte) ≠ byteAt eionFrame 0) ∧ (7 < eionFrame.length ∧ (0x1B : Byte) ≠ byteAt eionFrame 7) := by
  decide

/-- ShortDecodeOperandIsRefused. -/
theorem witness_short_operand : (eionFrame.take 7).length < 8 := by decide

/-- FrameRowsAgreeWithDecode: a row of each kind. -/
theorem witness_frame_rows :
    State.reset.cfg.codesInjective ∧ (Instr.frameShortEion 0).wellFormed State.reset.cfg = true ∧
    encodeWord State.reset.cfg (.frameShortEion 0) = .frame eionFrame ∧
    encodeWord State.reset.cfg (.frameHeaderProbe 0 0 0) = .frame probeFrame ∧
    (Instr.frameShortUnknown 0 0x0000).wellFormed State.reset.cfg = true ∧
    encodeWord State.reset.cfg (.frameState (StateFrame.ofBytes stateFrame)) = .frame stateFrame := by decide

/-- StateRowOutputsItsCommand, the four clauses. -/
theorem witness_state_row :
    (∀ m ∈ Mode.all, State.reset.cfg.modeCode m ≠ (StateFrame.ofBytes (stateFrame.set 5 0x1F)).modeCode) ∧
    (State.reset.cfg.modeCode .heat = (StateFrame.ofBytes (stateFrame.set 8 0x40)).modeCode ∧
      ∀ w ∈ Swing.all, State.reset.cfg.swingCode w ≠ (StateFrame.ofBytes (stateFrame.set 8 0x40)).swingCode) ∧
    (State.reset.cfg.swingCode .three = (StateFrame.ofBytes (stateFrame.set 8 0x03)).swingCode ∧
      ∀ f ∈ Fan.all, State.reset.cfg.fanCode f ≠ (StateFrame.ofBytes (stateFrame.set 8 0x03)).fanCode) ∧
    (State.reset.cfg.codesInjective ∧ State.reset.cfg.modeCode .heat = (StateFrame.ofBytes stateFrame).modeCode ∧
      State.reset.cfg.swingCode .three = (StateFrame.ofBytes stateFrame).swingCode ∧
      State.reset.cfg.fanCode .two = (StateFrame.ofBytes stateFrame).fanCode) := by decide

/-- EncodeShortBuildsTheFrame and EncodeStateBuildsTheFrame: capacities at the bound; both timer clauses. -/
theorem witness_encode :
    (7 < 8 ∧ 8 ≤ 8) ∧ (18 < 19 ∧ 19 ≤ 19) ∧ coolCommand.noTime = true ∧
    (stateCommand.noTime = false ∧ stateCommand.time ≠ 0) := by decide

/-- StateRoundTripCollapses, the three clauses: V-EN2, V-EN6, V-EN8. -/
theorem witness_state_round_trip :
    State.reset.cfg.codesInjective ∧ coolCommand.noTime = true ∧
    (extremeCommand.noTime = false ∧ extremeCommand.time ≠ 0 ∧ extremeCommand.onTime.toNat ≤ 0xFFF ∧
      extremeCommand.offTime.toNat ≤ 0xFFF) ∧ ¬ ((0xF1E0 : Half).toNat ≤ 0xFFF) := by decide

/-- ShortRoundTrip. -/
theorem witness_short_round_trip : State.reset.cfg.codesInjective ∧ 8 ≤ 8 := by decide

/-- PulseEncodeIndexMap: the places at the ends of its ranges. -/
theorem witness_pulse_places : (7 < 8 ∧ 0 < eionFrame.length ∧ 7 < eionFrame.length) ∧ 68 + 8 * eionFrame.length = 132 := by
  decide

/-- TransmitDurationsClassifyBack, TransmissionLoopsBack. -/
theorem witness_durations :
    State.reset.cfg.durationsValid ∧ (withStream true 3 5).streams[0]? = some ⟨true, 3, 5, 0, []⟩ ∧ Memory.wf [] = true ∧
    stateFrame.length ≤ 19 := by decide

/-- IdleGapReportsInvalidLength. -/
theorem witness_quiescent :
    State.reset.streams[0]? = some FrameAssemblyState.reset ∧ FrameAssemblyState.reset.quiescent = true := by decide

/-- EventsComeFromTheirSymbols: an input of each symbol has a next state. -/
theorem witness_rx_events :
    [(400, 0), (3200, 1600), (600, 700), (400, 400), (400, 1200)].all
      (fun p => (next? (exec (.rxPair 0 p.1 p.2) State.reset)).isSome) = true := by decide

/-- TxCommandSendsTheEncodedFrame. -/
theorem witness_tx : State.reset.cfg.txCapacity = 19 := by decide

/-- EncodeErrorBlocksTheTransmission. -/
theorem witness_tx_error :
    outputsOf (exec (encodeInstr (.state coolCommand) 18) { State.reset with cfg := { Config.reference with txCapacity := 18 } }) =
      [.encoded (.err .bufferTooSmall)] := by decide

/-- TransmittedCommandIsReceived, the three clauses: EIon, V-EN2, V-EN6. -/
theorem witness_transmitted :
    State.reset.cfg.valid ∧ State.reset.cfg.txCapacity = 19 ∧
    (withStream true 3 5).streams[0]? = some ⟨true, 3, 5, 0, []⟩ ∧ Memory.wf [] = true ∧ coolCommand.noTime = true ∧
    (coolCommand.onTime.toNat ≤ 0xFFF ∧ coolCommand.offTime.toNat ≤ 0xFFF) ∧
    (extremeCommand.noTime = false ∧ extremeCommand.time ≠ 0 ∧ extremeCommand.onTime.toNat ≤ 0xFFF ∧
      extremeCommand.offTime.toNat ≤ 0xFFF) := by decide

/-- ResetLooksLikeEndOrInvalid: the three steps have a next state. -/
theorem witness_reset_like_end :
    State.reset.cfg.literalErrorRows = false ∧ (next? (exec (.reset 0) (withStream true 3 5))).isSome = true ∧
    (next? (exec (.asmEnd 0) (withStream true 3 5))).isSome = true ∧
    (next? (exec (.asmInvalid 0) (withStream true 3 5))).isSome = true := by decide

/-- StepKeepsBuffersCanonical, StepKeepsIdleStreamsClear, StepConsumesOneInputInOrder: a stream that stores a byte. -/
theorem witness_invariants :
    ((withStream true 7 18 0x55).present [.symbol 0 .bit1]).buffersCanonical ∧
    ((withStream true 7 18 0x55).present [.symbol 0 .bit1]).idleStreamsAreClear ∧
    (next? (step ((withStream true 7 18 0x55).present [.symbol 0 .bit1]))).isSome = true := by decide

/-- StepRunsTheDecodedInstruction, FramePortGivesDecodeResult. -/
theorem witness_step :
    (State.reset.present [.frame eionFrame, .rxGap 0]).inputs = [.frame eionFrame, .rxGap 0] ∧
    decodeWord State.reset.cfg (.frame eionFrame) = .ok (.frameShortEion 0) := by decide

/-- UnknownReceiverFaults. -/
theorem witness_unknown_receiver : State.reset.streams[1]? = none := by decide

/-- DecodeOfEncodeIsIdentity. -/
theorem witness_encoding : Config.reference.codesInjective ∧ (Instr.frameState (StateFrame.ofBytes stateFrame)).wellFormed
    Config.reference = true ∧ (Instr.symBit1 400 1600).wellFormed Config.reference = true := by decide

/-- EncodeOfDecodeIsIdentity. -/
theorem witness_decoding : decodeWord Config.reference (.frame stateFrame) = .ok (.frameState (StateFrame.ofBytes stateFrame)) := by
  decide

/-- SetTemperatureClampsAndTransmits. -/
theorem witness_device : (DeviceState.mk (.state coolCommand)).current = .state coolCommand := by decide

end Sys2Proof.Tests
end

section
/-! PROOFS. The Pulse Classifier: the symbol each of the ordered rules R131 to R134 gives. -/

namespace Sys2Proof.Machine

section Rules
variable {mark space : Nat}

/-- R131: a pair with space 0 ends the frame, whatever its mark. -/
@[simp] theorem classify_space_zero (mark : Nat) : classify mark 0 = .endFrame := if_pos rfl

variable (hs : space ≠ 0)
include hs

/-- R132, in numbers. -/
theorem classify_eq_header (hh : (2700 < mark ∧ space < mark) ∨ (1600 < space ∧ mark < space)) :
    classify mark space = .header := by
  rw [classify, if_neg hs, if_pos hh]

variable (hh : ¬ ((2700 < mark ∧ space < mark) ∨ (1600 < space ∧ mark < space)))
include hh

/-- R133, in numbers: past the first two rules, a mark outside its tolerance. -/
theorem classify_eq_invalid (hm : mark < 400 - 150 ∨ 400 + 150 < mark) : classify mark space = .invalid := by
  rw [classify, if_neg hs, if_neg hh, if_pos hm]

variable (hlo : 400 - 150 ≤ mark) (hhi : mark ≤ 400 + 150)
include hlo hhi

/-- R134: past the first three rules, twice the pair's own mark splits the two bits. -/
theorem classify_eq_bit : classify mark space = if space < 2 * mark then .bit0 else .bit1 := by
  have hm : ¬ (mark < MARK_US - MARK_TOL ∨ MARK_US + MARK_TOL < mark) :=
    not_or.mpr ⟨Nat.not_lt.mpr hlo, Nat.not_lt.mpr hhi⟩
  rw [classify, if_neg hs, if_neg hh, if_neg hm]

theorem classify_eq_bit0 (hlt : space < 2 * mark) : classify mark space = .bit0 := by
  rw [classify_eq_bit hs hh hlo hhi, if_pos hlt]

theorem classify_eq_bit1 (hge : 2 * mark ≤ space) : classify mark space = .bit1 := by
  rw [classify_eq_bit hs hh hlo hhi, if_neg (Nat.not_lt.mpr hge)]

end Rules

/-- CLASSIFY runs in every state and does nothing but output the classifier's verdict (R135, R138). -/
theorem exec_classify (mark space : Nat) (s : State) :
    exec (.classify mark space) s = .next (s.emit (.symbol (classify mark space))) := rfl

/-- Settles O1: the symbol is the classifier's verdict, which each ordered rule's own lemma gives. -/
theorem classifyFollowsOrderedRules : Obligations.ClassifyFollowsOrderedRules := by
  intro s mark space
  refine ⟨classify mark space, exec_classify mark space s, ?space_zero, ?header, ?invalid, ?bit0, ?bit1⟩
  case space_zero => rintro rfl; exact classify_space_zero mark
  case header => exact classify_eq_header
  case invalid => exact classify_eq_invalid
  case bit0 => exact classify_eq_bit0
  case bit1 => exact classify_eq_bit1

end Sys2Proof.Machine
end

section
/-! PROOFS. The Frame Assembler: its two symbols that open and close a frame (R151, R153), and a data bit outside a frame
(R155). -/

namespace Sys2Proof.Machine

/-- A byte of a slice is the buffer's byte at that address. -/
theorem slice_getElem? {m : Memory} {n k : Nat} (hk : k < n) : (m.slice n)[k]? = some (m.read k) := by
  have hl : k < (m.slice n).length := by simpa using hk
  rw [List.getElem?_eq_getElem hl, slice_getElem]

section Rules
variable {a : FrameAssemblyState}

/-- R153 at a byte boundary. -/
theorem asmEnd_aligned (hb : a.bitCount = 0) :
    asmEnd a = (a.toIdle, .frameComplete a.byteCount.val (a.buffer.slice a.byteCount.val)) :=
  if_pos hb

/-- R153 inside a byte. -/
theorem asmEnd_unaligned (hb : a.bitCount ≠ 0) : asmEnd a = (a.toIdle, .fail .incompleteByte) :=
  if_neg hb

/-- Outside a frame no data bit reaches `push_bit` (R155); inside one `asmStep_bit` says what it does. -/
theorem asmStep_bit_idle (cfg : Config) (b : Bool) (hf : a.inFrame = false) :
    asmStep cfg a (if b then .bit1 else .bit0) = (a, .none) := by
  have hbody (p : FrameAssemblyState × AsmEvent) : whenInFrame a p = (a, .none) := by simp [whenInFrame, hf]
  cases b with
  | false => exact hbody (pushBit cfg false a)
  | true => exact hbody (pushBit cfg true a)

end Rules

section Exec
variable {s : State} {r : Nat} {a : FrameAssemblyState} (ha : s.streams[r]? = some a)
include ha

theorem exec_asmHeader : exec (.asmHeader r) s = .next ((s.setStream r a.startFrame).emit (.asm .none)) :=
  exec_decodeSymbol .header ha

theorem exec_asmEnd : exec (.asmEnd r) s = .next ((s.setStream r (asmEnd a).1).emit (.asm (asmEnd a).2)) :=
  exec_decodeSymbol .endFrame ha

/-- A data bit's operation is the assembler's step for its symbol (R156, R157). -/
theorem exec_bitInstr (b : Bool) :
    exec (bitInstr r b) s =
      .next ((s.setStream r (asmStep s.cfg a (if b then .bit1 else .bit0)).1).emit
        (.asm (asmStep s.cfg a (if b then .bit1 else .bit0)).2)) := by
  have hi : bitInstr r b = decodeSymbol r (if b then .bit1 else .bit0) := by cases b <;> rfl
  rw [hi]
  exact exec_decodeSymbol _ ha

end Exec

/-- Settles O7: the boundary decides between the two events, and the data reported is the slice of the buffer below
`byte_count`. -/
theorem asmEndClosesTheFrame : Obligations.AsmEndClosesTheFrame := by
  intro s r a ha
  refine ⟨fun hb => ⟨a.buffer.slice a.byteCount.val, slice_length _ _, fun k hk => slice_getElem? hk, ?aligned⟩,
    fun hb => ?unaligned⟩
  case aligned => rw [exec_asmEnd ha, asmEnd_aligned hb]; rfl
  case unaligned => rw [exec_asmEnd ha, asmEnd_unaligned hb]; rfl

/-- Settles O5: a Header starts a frame from any registers, in a frame or not. -/
theorem asmHeaderStartsAFrame : Obligations.AsmHeaderStartsAFrame :=
  fun _ _ _ ha => exec_asmHeader ha

/-- Settles O11: the step leaves the registers, so writing the stream back leaves the state. -/
theorem idleDataBitIsIgnored : Obligations.IdleDataBitIsIgnored := by
  intro s r a b ha hf
  rw [exec_bitInstr ha, asmStep_bit_idle s.cfg b hf, setStream_self ha]

end Sys2Proof.Machine
end

section
/-! PROOFS. The Frame Codec's DECODE: its three checks in order (R181 to R183) and the eight-byte frames (R184, R185). -/

namespace Sys2Proof.Machine

section Checks
variable {cfg : Config} {bytes : List Byte} {n : Nat}

/-- R181: a length of neither frame. -/
theorem codecDecode_invalidLength (h8 : n ≠ 8) (h19 : n ≠ 19) : codecDecode cfg bytes n = .err .invalidLength :=
  if_pos ⟨h8, h19⟩

variable (hn : n = 8 ∨ n = 19)
include hn

/-- A frame's length passes R181. -/
theorem not_badLength : ¬ (n ≠ LEN_SHORT ∧ n ≠ LEN_STATE) := fun ⟨h8, h19⟩ => hn.elim h8 h19

/-- R182, with the checksum on numbers. -/
theorem codecDecode_invalidChecksum (hc : checksumOf bytes (n - 1) ≠ (byteAt bytes (n - 1)).toNat) :
    codecDecode cfg bytes n = .err .invalidChecksum := by
  have hsum : sum8 bytes (n - 1) ≠ byteAt bytes (n - 1) := mt (sum8_eq_iff bytes _ _).mp hc
  rw [codecDecode, if_neg (not_badLength hn), if_pos hsum]

/-- R183: the header is looked at once the checksum holds. -/
theorem codecDecode_invalidHeader (hc : checksumOf bytes (n - 1) = (byteAt bytes (n - 1)).toNat)
    (hh : bytes.take 4 ≠ FRAME_HDR) : codecDecode cfg bytes n = .err .invalidHeader := by
  have hsum : sum8 bytes (n - 1) = byteAt bytes (n - 1) := (sum8_eq_iff bytes _ _).mpr hc
  rw [codecDecode, if_neg (not_badLength hn), if_neg (not_not.mpr hsum), if_pos hh]

end Checks

section ShortCode
variable {cfg : Config}

/-- R185: the code of a short command, the codes being injective, gives that command. -/
theorem decodeShort_shortCode (h : cfg.codesInjective) (c : ShortCommand) :
    decodeShort cfg (cfg.shortCode c) = .cmd (.short c) := by
  rw [decodeShort, shortOf?_shortCode h]

/-- R185: a code of none of the nine commands. -/
theorem decodeShort_unknown {code : Half} (h : ∀ c, cfg.shortCode c ≠ code) :
    decodeShort cfg code = .err .unknownCommand := by
  have hnone : cfg.shortOf? code = none := Option.eq_none_iff_forall_ne_some.mpr
    fun c hc => h c (shortCode_of_shortOf? hc)
  rw [decodeShort, hnone]

/-- Two bytes hold a code exactly when they are its little-endian digits (R10). -/
theorem le16_eq_iff (lo hi : Byte) (code : Half) : le16 lo hi = code ↔ lo.toNat + 256 * hi.toNat = code.toNat := by
  rw [← le16_toNat]; exact BitVec.toNat_inj.symm

end ShortCode

/-- R185, as an operation: past the checks with the kind bit set, the code of bytes 5 and 6 decides. -/
theorem exec_decode_short {s : State} {bytes : List Byte} (hp : passesChecks bytes 8)
    (hk : (byteAt bytes 4).getLsbD 7 = true) :
    exec (.decode bytes 8) s =
      .next (s.emit (.decoded (decodeShort s.cfg (le16 (byteAt bytes 5) (byteAt bytes 6))))) := by
  rw [exec_decode hp.1, codecDecode_eight hp, if_neg (by simp [hk])]

/-- Settles O20: DECODE completes with the codec's result, which each failing check's own lemma gives. -/
theorem decodeReportsTheFirstFailingCheck : Obligations.DecodeReportsTheFirstFailingCheck := by
  intro s bytes n hlen
  rw [exec_decode hlen]
  refine ⟨fun h8 h19 => ?length, fun hn hc => ?checksum, fun hn hc hh => ?header⟩
  case length => rw [codecDecode_invalidLength h8 h19]
  case checksum => rw [codecDecode_invalidChecksum hn hc]
  case header => rw [codecDecode_invalidHeader hn hc hh]

/-- Settles O22: bytes 5 and 6 are a command's code as numbers exactly when they are as a word, so the code table
decides. -/
theorem decodeMatchesTheShortCode : Obligations.DecodeMatchesTheShortCode := by
  intro s bytes hp hk
  rw [exec_decode_short hp hk]
  refine ⟨fun hinj c hc => ?known, fun hne => ?unknown⟩
  case known => rw [(le16_eq_iff _ _ _).mpr hc, decodeShort_shortCode hinj]
  case unknown => rw [decodeShort_unknown fun c hc => hne c ((le16_eq_iff _ _ _).mp hc.symm)]

/-- Settles O21: past the checks, the clear kind bit alone decides. -/
theorem decodeRecognisesHeaderProbe : Obligations.DecodeRecognisesHeaderProbe := by
  intro s bytes hp hk
  rw [exec_decode hp.1, codecDecode_eight hp, if_pos hk]

end Sys2Proof.Machine
end

section
/-! PROOFS. The Frame Codec's ENCODE.SHORT: the capacity check (R216) and the eight bytes (R211). -/

namespace Sys2Proof.Machine

/-- R91 on the seven bytes of R211: the five fixed ones sum to `0x86` modulo 256. -/
theorem sum8_shortBody_toNat (lo hi : Byte) :
    (sum8 (FRAME_HDR ++ [0x80, lo, hi]) 7).toNat = (0x86 + lo.toNat + hi.toNat) % 256 := by
  have hsum : ((FRAME_HDR ++ [0x80, lo, hi]).map BitVec.toNat).sum = 0x186 + lo.toNat + hi.toNat := by
    simp [FRAME_HDR]; omega
  rw [sum8_toNat, checksumOf, List.take_of_length_le (by simp [FRAME_HDR]), hsum]
  omega

/-- R216: below eight bytes the error is the only output. -/
theorem exec_encodeShort_small {s : State} {c : ShortCommand} {capacity : Nat} (h : capacity < 8) :
    exec (.encodeShort c capacity) s = .next (s.emit (.encoded (.err .bufferTooSmall))) := by
  rw [exec, execEncodeShort, codecEncodeShort, LEN_SHORT, if_pos h]

/-- Settles O30: the capacity decides, and the bytes are the code's little-endian digits and the sum over the seven bytes
before it. -/
theorem encodeShortBuildsTheFrame : Obligations.EncodeShortBuildsTheFrame := by
  intro s c capacity
  refine ⟨exec_encodeShort_small, fun h => ⟨loByte (s.cfg.shortCode c), hiByte (s.cfg.shortCode c), _,
    loByte_toNat _, hiByte_toNat _, sum8_shortBody_toNat _ _, ?bytes⟩⟩
  case bytes => exact exec_encodeShort h

end Sys2Proof.Machine
end

section
/-! PROOFS. The receive compositions (45_pipelines.md): a symbol through the assembler, and `deliver` of its event (R260
to R262). -/

namespace Sys2Proof.Machine

/-- The three cases of `push_bit` (R154) report None or the overflow. -/
theorem pushBit_ne_frameComplete (cfg : Config) (b : Bool) (a : FrameAssemblyState) (n : Nat) (data : List Byte) :
    (pushBit cfg b a).2 ≠ .frameComplete n data := by
  rcases bit_cases a with hlt | ⟨h7, hroom⟩ | ⟨h7, hfull⟩
  · simp [pushBit_accumulates cfg b hlt]
  · simp [pushBit_completes cfg b h7 hroom]
  · simp [pushBit_overflows cfg b h7 hfull, FrameAssemblyState.raise]

/-- No data bit completes a frame, in one (R154) or outside (R155). -/
theorem asmStep_bit_ne_frameComplete (cfg : Config) (a : FrameAssemblyState) (b : Bool) (n : Nat) (data : List Byte) :
    (asmStep cfg a (if b then .bit1 else .bit0)).2 ≠ .frameComplete n data := by
  cases hf : a.inFrame with
  | false => simp [asmStep_bit_idle cfg b hf]
  | true => rw [asmStep_bit cfg b hf]; exact pushBit_ne_frameComplete cfg b a n data

section Deliver
variable {n : Nat} {data : List Byte}

/-- R153: the frame an End reports is as long as the length it reports. -/
theorem asmEnd_frameComplete_length {a : FrameAssemblyState} (h : (asmEnd a).2 = .frameComplete n data) :
    data.length = n := by
  by_cases hb : a.bitCount = 0
  · rw [asmEnd_aligned hb] at h
    obtain ⟨rfl, rfl⟩ := AsmEvent.frameComplete.inj h
    exact slice_length _ _
  · rw [asmEnd_unaligned hb] at h
    cases h

/-- Only an End completes a frame, so every reported frame has the reported length. -/
theorem asmStep_frameComplete_length {cfg : Config} {a : FrameAssemblyState} {sym : Symbol}
    (h : (asmStep cfg a sym).2 = .frameComplete n data) : data.length = n := by
  cases sym with
  | header => cases h
  | invalid => cases h
  | endFrame => exact asmEnd_frameComplete_length h
  | bit0 => exact absurd h (asmStep_bit_ne_frameComplete cfg a false n data)
  | bit1 => exact absurd h (asmStep_bit_ne_frameComplete cfg a true n data)

/-- R262, the FrameComplete row: DECODE of the reported frame completes, since it has all its bytes, and its result is
what is delivered. -/
theorem deliver_frameComplete {s : State} {a : FrameAssemblyState} {sym : Symbol}
    (h : (asmStep s.cfg a sym).2 = .frameComplete n data) :
    ∃ res, exec (.decode data n) s = .next (s.emit (.decoded res)) ∧
      (∀ c, res = .cmd c → deliver s.cfg (asmStep s.cfg a sym).2 = .cmd c) ∧
      (res = .headerProbe → deliver s.cfg (asmStep s.cfg a sym).2 = .headerProbe) ∧
      (∀ e, res = .err e → deliver s.cfg (asmStep s.cfg a sym).2 = .err (.decode e)) := by
  have hrx : deliver s.cfg (asmStep s.cfg a sym).2 = (codecDecode s.cfg data n).toRx := by rw [h]; rfl
  rw [hrx]
  refine ⟨_, exec_decode (asmStep_frameComplete_length h).ge, fun c hc => ?cmd, fun hp => ?headerProbe, fun e he => ?err⟩
  case cmd => rw [hc]; rfl
  case headerProbe => rw [hp]; rfl
  case err => rw [he]; rfl

end Deliver

/-- R262, the None row. -/
theorem deliver_of_eq_none {cfg : Config} {ev : AsmEvent} (h : ev = .none) : deliver cfg ev = .noEvent := by rw [h]; rfl

/-- R262, the Fail row. -/
theorem deliver_of_eq_fail {cfg : Config} {ev : AsmEvent} (e : FrameError) (h : ev = .fail e) :
    deliver cfg ev = .err (.frame e) := by rw [h]; rfl

/-- R261: RX_GAP's registers are ASM.END's, and its event is delivered. -/
theorem exec_rxGap {s : State} {r : Nat} {a : FrameAssemblyState} (ha : s.streams[r]? = some a) :
    exec (.rxGap r) s = .next ((s.setStream r (asmStep s.cfg a .endFrame).1).emit
      (.rx (deliver s.cfg (asmStep s.cfg a .endFrame).2))) :=
  onStream_some ha

/-- Settles O37: all three operations run the assembler on the classifier's verdict, and each row of `deliver` has its own
lemma. -/
theorem rxPairComposes : Obligations.RxPairComposes := by
  intro s r mark space a ha
  exact ⟨classify mark space, _, _, _, exec_classify mark space s, exec_decodeSymbol _ ha, exec_rxPair ha, deliver_of_eq_none,
    deliver_of_eq_fail, fun _ _ => deliver_frameComplete⟩

/-- Settles O38: both operations run the assembler on an End, and each row of `deliver` has its own lemma. -/
theorem rxGapIsAnEndSymbol : Obligations.RxGapIsAnEndSymbol := by
  intro s r a ha
  exact ⟨_, _, _, exec_decodeSymbol .endFrame ha, exec_rxGap ha, deliver_of_eq_fail, fun _ _ => deliver_frameComplete⟩

end Sys2Proof.Machine
end

section
/-! PROOFS. Errors in the host (60_exceptions.md): the receive loop on a rejected frame (R332). -/

namespace Sys2Proof.Machine

/-- Settles O60: the handler's error arm does not look at which error it is, so it answers the device it was given and no
cycle, whether the frame or its decoding failed. -/
theorem rejectedFrameHasNoSideEffects : Obligations.RejectedFrameHasNoSideEffects := by
  intro cfg d e
  rfl

end Sys2Proof.Machine
end

section
/-! PROOFS. A framed byte string on the assembler's port (R161), and a transmission looped back to it (R245). -/

namespace Sys2Proof.Machine

/-- The header, eight symbols a byte, and the End. -/
theorem frameSymbols_length (data : List Byte) : (frameSymbols data).length = 8 * data.length + 2 := by
  have hbyte (v : Byte) : (byteSymbols v).length = 8 := by simp [byteSymbols]
  simp [frameSymbols, List.length_flatMap, hbyte]
  omega

/-- Settles O16: the run is `feed` of the frame's symbols, and `feed_frame` (by induction on the bytes) says what that
gives. -/
theorem framedBytesAreReported : Obligations.FramedBytesAreReported := by
  intro s r a data rest ha hw hn hi
  obtain ⟨b, hfeed, hq, -⟩ := feed_frame s.cfg data a hn hw
  have hrun := run_symbols (frameSymbols data) rest s a ha hi
  rw [hfeed, frameSymbols_length] at hrun
  exact ⟨_, b, hrun, by simp, rfl, hq, rfl, rfl, rfl⟩

/-- PULSE_ENCODE outputs its sequence in every state (R240). -/
theorem exec_pulseEncode (data : List Byte) (s : State) :
    exec (.pulseEncode data) s = .next (s.emit (.pulses (pulseSeq s.cfg data))) := rfl

/-- Settles O36: the sequence's symbols are two header runs and one frame, and `feed_pulse` gives their events. -/
theorem transmissionLoopsBack : Obligations.TransmissionLoopsBack := by
  intro s r a data hd ha hw hn
  obtain ⟨b, hfeed, hq⟩ := feed_pulse hd data a hn hw
  have hrun := run_symbols ((pulseSeq s.cfg data).map fun p => classify p.mark p.space) []
    { s with inputs := (pulseSeq s.cfg data).map fun p => .symbol r (classify p.mark p.space) } a ha (by simp)
  rw [hfeed, List.length_map] at hrun
  exact ⟨_, exec_pulseEncode data s, _, b, hrun, by simp, rfl, hq⟩

end Sys2Proof.Machine
end

section
/-! PROOFS. ENCODE and then DECODE: the round trip of short (R218) and State commands (R217). -/

namespace Sys2Proof.Machine

/-- The timer fields as the frame holds them, in twelve bits each (D13). -/
def truncateTimers (c : StateCommand) : StateCommand :=
  { c with
    onTime := BitVec.ofNat 16 (c.onTime.toNat % 4096)
    offTime := BitVec.ofNat 16 (c.offTime.toNat % 4096) }

/-- Timer fields of at most twelve bits are kept. -/
theorem truncateTimers_of_fits {c : StateCommand} (hon : c.onTime.toNat ≤ 0xFFF) (hoff : c.offTime.toNat ≤ 0xFFF) :
    truncateTimers c = c := by
  have hlow {v : Half} (hv : v.toNat ≤ 0xFFF) : BitVec.ofNat 16 (v.toNat % 4096) = v := by
    rw [Nat.mod_eq_of_lt (by omega), BitVec.ofNat_toNat, BitVec.setWidth_eq]
  simp only [truncateTimers, hlow hon, hlow hoff]

/-- The sentinel fits in twelve bits (R214). -/
theorem truncateTimers_collapse_forced {c : StateCommand} (h : c.noTime = true ∨ c.time = 0) :
    truncateTimers (collapse c) = { c with onTime := 0x600, offTime := 0x600, time := 0 } := by
  have hfits : TIME_SENTINEL.toNat ≤ 0xFFF := by decide
  rw [collapse, if_pos h]
  exact truncateTimers_of_fits hfits hfits

/-- Without `no_time` and with a time set, nothing is forced (R214). -/
theorem collapse_eq_self {c : StateCommand} (hno : c.noTime = false) (ht : c.time ≠ 0) : collapse c = c :=
  if_neg (not_or.mpr ⟨ne_true_of_eq_false hno, ht⟩)

/-- `collapse` writes the three timer fields only. -/
theorem collapse_frame (c : StateCommand) :
    collapse c = { c with
      onTime := (collapse c).onTime, offTime := (collapse c).offTime, time := (collapse c).time } := by
  unfold collapse; split <;> rfl

section
variable {cfg : Config} (h : cfg.codesInjective)
include h

/-- R217 on the frame's fields: every code is found again, and the timer fields come back collapsed and truncated. -/
theorem decodeState_encodedFrame (c : StateCommand) :
    decodeState cfg (encodedFrame cfg c) = .cmd (.state (truncateTimers (collapse c))) := by
  rw [collapse_frame]
  simp only [decodeState, encodedFrame, modeOf?_modeCode h, swingOf?_swingCode h, fanOf?_fanCode h, low12, truncateTimers]

/-- R217: DECODE of ENCODE.STATE's bytes. -/
theorem codecDecode_encodeStateBytes (c : StateCommand) :
    codecDecode cfg (encodeStateBytes cfg c) 19 = .cmd (.state (truncateTimers (collapse c))) := by
  rw [encodeStateBytes_eq, codecDecode_stateFrame, decodeState_encodedFrame h]

/-- R218: DECODE of ENCODE.SHORT's bytes. -/
theorem codecDecode_encodeShortBytes (c : ShortCommand) :
    codecDecode cfg (encodeShortBytes cfg c) 8 = .cmd (.short c) := by
  rw [encodeShortBytes_eq, shortFrame, codecDecode_frame8, if_neg (by decide), le16_lo_hi, decodeShort_shortCode h]

end

@[simp] theorem encodeStateBytes_length (cfg : Config) (c : StateCommand) : (encodeStateBytes cfg c).length = 19 := by
  rw [encodeStateBytes_eq, stateFrame_length]

@[simp] theorem encodeShortBytes_length (cfg : Config) (c : ShortCommand) : (encodeShortBytes cfg c).length = 8 := rfl

/-- Settles O32: DECODE gives the collapsed and truncated command, which each clause's hypotheses determine. -/
theorem stateRoundTripCollapses : Obligations.StateRoundTripCollapses := by
  intro s c capacity hinj hcap
  have hlen := encodeStateBytes_length s.cfg c
  have hdec : exec (.decode (encodeStateBytes s.cfg c) 19) s =
      .next (s.emit (.decoded (.cmd (.state (truncateTimers (collapse c)))))) := by
    rw [exec_decode hlen.ge, codecDecode_encodeStateBytes hinj]
  refine ⟨_, hlen, exec_encodeState hcap, fun hforced => ?forced, fun hno ht hon hoff => ?fits, fun hno ht => ?modulo⟩
  case forced => rw [hdec, truncateTimers_collapse_forced hforced]
  case fits => rw [hdec, collapse_eq_self hno ht, truncateTimers_of_fits hon hoff]
  case modulo => rw [hdec, collapse_eq_self hno ht, truncateTimers]

/-- Settles O33: the eight bytes carry the command's code, which the injective table finds again. -/
theorem shortRoundTrip : Obligations.ShortRoundTrip := by
  intro s c capacity hinj hcap
  have hlen := encodeShortBytes_length s.cfg c
  refine ⟨_, hlen, exec_encodeShort hcap, ?decode⟩
  case decode => rw [exec_decode hlen.ge, codecDecode_encodeShortBytes hinj]

end Sys2Proof.Machine
end

section
/-! PROOFS. The transmit composition (R265): ENCODE, PULSE_ENCODE, the error that blocks it (R361), and its reception
(R266). -/

namespace Sys2Proof.Machine

/-- The bytes ENCODE builds for a command, where the capacity allows (R210). -/
def encodedBytes (cfg : Config) : Command → List Byte
  | .short c => encodeShortBytes cfg c
  | .state c => encodeStateBytes cfg c

theorem encodedBytes_length_le (cfg : Config) (c : Command) : (encodedBytes cfg c).length ≤ 19 := by
  cases c with
  | short c => simp [encodedBytes]
  | state c => simp [encodedBytes]

/-- With nineteen bytes of room no command fails (R216). -/
theorem codecEncode_nineteen (cfg : Config) (c : Command) :
    codecEncode cfg c 19 = .ok (encodedBytes cfg c) (encodedBytes cfg c).length := by
  cases c with
  | short c => rfl
  | state c => rfl

/-- ENCODE outputs the codec's result (R210). -/
theorem exec_encodeInstr (c : Command) (capacity : Nat) (s : State) :
    exec (encodeInstr c capacity) s = .next (s.emit (.encoded (codecEncode s.cfg c capacity))) := by
  cases c with
  | short c => rfl
  | state c => rfl

theorem exec_txCommand (c : Command) (s : State) :
    exec (.txCommand c) s = .next (s.emit (.tx (transmit s.cfg c))) := rfl

/-- R265 with the transmit buffer of D24. -/
theorem transmit_nineteen {cfg : Config} (hcap : cfg.txCapacity = 19) (c : Command) :
    transmit cfg c = .pulses (pulseSeq cfg (encodedBytes cfg c)) := by
  rw [transmit, hcap, codecEncode_nineteen]

/-- R361, D25. -/
theorem transmit_of_codecEncode_err {cfg : Config} {c : Command} {e : EncodeError}
    (h : codecEncode cfg c cfg.txCapacity = .err e) : transmit cfg c = .err e := by
  rw [transmit, h]

/-- Settles O41: at nineteen bytes ENCODE answers Ok, and TX_COMMAND is the sequence of its bytes. -/
theorem txCommandSendsTheEncodedFrame : Obligations.TxCommandSendsTheEncodedFrame := by
  intro s c hcap
  refine ⟨encodedBytes s.cfg c, _, ?encode, exec_pulseEncode _ s, ?transmit⟩
  case encode => rw [exec_encodeInstr, codecEncode_nineteen]
  case transmit => rw [exec_txCommand, transmit_nineteen hcap]

/-- Settles O42: ENCODE's output is the codec's result, so the error is what TX_COMMAND meets. -/
theorem encodeErrorBlocksTheTransmission : Obligations.EncodeErrorBlocksTheTransmission := by
  intro s c e h
  rw [exec_encodeInstr] at h
  have herr : codecEncode s.cfg c s.cfg.txCapacity = .err e := by simpa [State.emit] using h
  rw [exec_txCommand, transmit_of_codecEncode_err herr]

/-- The command that comes back of a transmitted one (R217, R218). -/
def receivedCommand : Command → Command
  | .short c => .short c
  | .state c => .state (truncateTimers (collapse c))

theorem codecDecode_encodedBytes {cfg : Config} (h : cfg.codesInjective) (c : Command) :
    codecDecode cfg (encodedBytes cfg c) (encodedBytes cfg c).length = .cmd (receivedCommand c) := by
  cases c with
  | short c => exact codecDecode_encodeShortBytes h c
  | state c => simpa [encodedBytes, receivedCommand] using codecDecode_encodeStateBytes h c

/-- Settles O43: received pair by pair the frame completes at the last pair alone, and the codec gives its command back. -/
theorem transmittedCommandIsReceived : Obligations.TransmittedCommandIsReceived := by
  intro s r a c ⟨hinj, hdur⟩ hcap ha hw hfits
  obtain ⟨b, hfeed, -⟩ := feed_pulse hdur (encodedBytes s.cfg c) a (encodedBytes_length_le s.cfg c) hw
  have hrun := run_pairs (pulseSeq s.cfg (encodedBytes s.cfg c)) []
    { s with inputs := (pulseSeq s.cfg (encodedBytes s.cfg c)).map fun p => .rxPair r p.mark p.space } a ha (by simp)
  rw [hfeed] at hrun
  refine ⟨_, receivedCommand c, _, ?transmit, hrun, ?outputs, ?short, ?forced, ?kept⟩
  case transmit => rw [exec_txCommand, transmit_nineteen hcap]
  case outputs => simp [deliver, codecDecode_encodedBytes hinj, DecodeResult.toRx]
  case short => rintro x rfl; rfl
  case forced => rintro x rfl hx; rw [receivedCommand, truncateTimers_collapse_forced hx]
  case kept =>
    rintro x rfl hno ht
    obtain ⟨hon, hoff⟩ := hfits x rfl
    rw [receivedCommand, collapse_eq_self hno ht, truncateTimers_of_fits hon hoff]

end Sys2Proof.Machine
end

section
/-! PROOFS. What every step keeps, and that the state after reset meets it. -/

namespace Sys2Proof.Machine

/-- Settles O47: by the step's three effects, of which an assembler step and RESET write a buffer. -/
theorem stepKeepsBuffersCanonical : Obligations.StepKeepsBuffersCanonical := by
  intro s t hs hstep
  rcases step_effect hstep with ⟨-, rfl⟩ | ⟨w, rest, -, heff⟩
  · exact hs
  · exact heff.keeps_streams hs (fun _ sym => asmStep_buffer_wf _ sym) afterReset_buffer_wf

/-- Settles O49: by the step's three effects; RESET leaves an idle stream clear, an assembler step keeps it clear. -/
theorem stepKeepsIdleStreamsClear : Obligations.StepKeepsIdleStreamsClear := by
  intro s t ⟨hd, hs⟩ hstep
  rcases step_effect hstep with ⟨-, rfl⟩ | ⟨w, rest, -, heff⟩
  · exact ⟨hd, hs⟩
  · refine ⟨by rw [heff.cfg_eq]; exact hd, heff.keeps_streams hs ?step ?reset⟩
    case step => exact fun _ sym => asmStep_keeps_idleCountersZero hd sym
    case reset => exact fun _ _ => ⟨rfl, rfl⟩

/-- Settles O48: the one buffer lists no byte. -/
theorem resetBuffersCanonical : Obligations.ResetBuffersCanonical := by
  intro a ha
  rw [List.mem_singleton.mp ha]
  rfl

/-- Settles O50: the one stream's counters are 0. -/
theorem resetStreamsAreClear : Obligations.ResetStreamsAreClear := by
  refine ⟨rfl, fun a ha _ => ?_⟩
  rw [List.mem_singleton.mp ha]
  exact ⟨rfl, rfl⟩

/-- Settles O46: the reset state is written out. -/
theorem resetStateRegisters : Obligations.ResetStateRegisters :=
  ⟨FrameAssemblyState.reset, rfl, rfl, rfl, rfl, rfl, rfl, rfl⟩

/-- An effect adds at most one output. -/
theorem Effect.outputs_eq {s t : State} (e : Effect s t) : t.outputs = s.outputs ∨ ∃ o, t.outputs = s.outputs ++ [o] := by
  cases e with
  | output o h => exact .inr ⟨o, by rw [h]; rfl⟩
  | stream r a sym o ha h => exact .inr ⟨o, by rw [h]; rfl⟩
  | reset r a ha h => exact .inl (by rw [h]; rfl)

/-- Settles O51: a step waits or has one effect on the state without its oldest input. -/
theorem stepConsumesOneInputInOrder : Obligations.StepConsumesOneInputInOrder := by
  intro s t hstep
  rcases step_effect hstep with ⟨hi, rfl⟩ | ⟨w, rest, hi, heff⟩
  · exact ⟨rfl, rfl, .inl ⟨hi, rfl⟩⟩
  · exact ⟨heff.cfg_eq, heff.streams_length, .inr ⟨w, by rw [hi, heff.inputs_eq], heff.outputs_eq⟩⟩

/-- A step on a word that is an instruction. -/
theorem step_of_decodeWord_ok {s : State} {w : PortWord} {rest : List PortWord} {i : Instr} (hi : s.inputs = w :: rest)
    (hd : decodeWord s.cfg w = .ok i) : step s = exec i { s with inputs := rest } := by
  simp only [step, hi, hd]

/-- A step on a word that is none. -/
theorem step_of_decodeWord_error {s : State} {w : PortWord} {rest : List PortWord} {e : Reject}
    (hi : s.inputs = w :: rest) (hd : decodeWord s.cfg w = .error e) :
    step s = takeReject e { s with inputs := rest } := by
  simp only [step, hi, hd]

/-- Settles O52: the two matches of `step` meet the word and the instruction. -/
theorem stepRunsTheDecodedInstruction : Obligations.StepRunsTheDecodedInstruction :=
  fun _ _ _ _ hi hd => step_of_decodeWord_ok hi hd

/-- Settles O53: a frame row's meaning is DECODE's result for its bytes, and the reason of a byte string that is no row is
DECODE's error. -/
theorem framePortGivesDecodeResult : Obligations.FramePortGivesDecodeResult := by
  intro s bytes rest hi
  refine ⟨codecDecode s.cfg bytes bytes.length, ?_, exec_decode le_rfl⟩
  cases hd : decodeFrame s.cfg bytes with
  | ok i => exact (step_of_decodeWord_ok hi hd).trans (exec_of_decodeFrame hd _ rfl)
  | error x =>
    obtain ⟨e, rfl, hres⟩ := codecDecode_of_reject hd
    rw [step_of_decodeWord_error hi hd, hres]
    rfl

end Sys2Proof.Machine
end

section
/-! PROOFS. Pulse pairs: the regions of R81 are the classifier's verdicts, and each region has its own SYM row. -/

namespace Sys2Proof.Machine

/-- The region of R81 that stands for a symbol. -/
def symbolRegion : Symbol → Nat → Nat → Prop
  | .endFrame, _, space => space = 0
  | .header, mark, space => regionHeader mark space
  | .invalid, mark, space => regionInvalid mark space
  | .bit0, mark, space => regionBit0 mark space
  | .bit1, mark, space => regionBit1 mark space

/-- The SYM row of a symbol. -/
def symbolRow : Symbol → Nat → Nat → Instr
  | .endFrame, mark, _ => .symEnd mark
  | .header, mark, space => .symHeader mark space
  | .invalid, mark, space => .symInvalid mark space
  | .bit0, mark, space => .symBit0 mark space
  | .bit1, mark, space => .symBit1 mark space

/-- Every pair lies in a region. -/
theorem exists_symbolRegion (mark space : Nat) : ∃ sym, symbolRegion sym mark space := by
  by_cases hs : space = 0
  · exact ⟨.endFrame, hs⟩
  by_cases hh : regionHeader mark space
  · exact ⟨.header, hh⟩
  by_cases hi : regionInvalid mark space
  · exact ⟨.invalid, hi⟩
  have hs : 1 ≤ space := Nat.pos_of_ne_zero hs
  have hm : 250 ≤ mark ∧ mark ≤ 550 := by
    by_contra hm; exact hi ⟨hs, hh, by omega⟩
  rcases Nat.lt_or_ge space (2 * mark) with hlt | hge
  · exact ⟨.bit0, hs, hh, hm.1, hm.2, hlt⟩
  · exact ⟨.bit1, hs, hh, hm.1, hm.2, hge⟩

section
variable {sym : Symbol} {mark space : Nat}

/-- R131 to R134: a pair of a region classifies as its symbol. -/
theorem classify_of_symbolRegion (h : symbolRegion sym mark space) : classify mark space = sym := by
  cases sym with
  | endFrame => cases h; exact classify_space_zero mark
  | header =>
    obtain ⟨hs, hh⟩ := h
    exact classify_eq_header (by omega) (by omega)
  | invalid =>
    obtain ⟨hs, hh, hm⟩ := h
    exact classify_eq_invalid (by omega) (by omega) (by omega)
  | bit0 =>
    obtain ⟨hs, hh, hlo, hhi, hlt⟩ := h
    exact classify_eq_bit0 (by omega) (by omega) hlo hhi hlt
  | bit1 =>
    obtain ⟨hs, hh, hlo, hhi, hge⟩ := h
    exact classify_eq_bit1 (by omega) (by omega) hlo hhi hge

/-- The regions cover every pair, so a verdict has its region. -/
theorem classify_eq_iff_symbolRegion : classify mark space = sym ↔ symbolRegion sym mark space := by
  refine ⟨fun h => ?_, classify_of_symbolRegion⟩
  obtain ⟨y, hy⟩ := exists_symbolRegion mark space
  obtain rfl : y = sym := (classify_of_symbolRegion hy).symm.trans h
  exact hy

/-- The pair port reads a pair of a region as its row. -/
theorem decodePair_of_symbolRegion (h : symbolRegion sym mark space) : decodePair mark space = symbolRow sym mark space := by
  cases sym with
  | endFrame => exact if_pos h
  | header =>
    have hs : space ≠ 0 := Nat.ne_of_gt h.1
    exact (if_neg hs).trans (if_pos h)
  | invalid =>
    obtain ⟨hs, hh, -⟩ := id h
    rw [decodePair, if_neg (Nat.ne_of_gt hs), if_neg hh]
    exact if_pos h
  | bit0 =>
    obtain ⟨hs, hh, hlo, hhi, -⟩ := id h
    rw [decodePair, if_neg (Nat.ne_of_gt hs), if_neg hh, if_neg (by omega)]
    exact if_pos h
  | bit1 =>
    obtain ⟨hs, hh, hlo, hhi, hge⟩ := h
    rw [decodePair, if_neg (Nat.ne_of_gt hs), if_neg hh, if_neg (by omega), if_neg (by omega), symbolRow]

theorem symbolRow_wellFormed (cfg : Config) (h : symbolRegion sym mark space) :
    (symbolRow sym mark space).wellFormed cfg = true := by
  cases sym with
  | endFrame => rfl
  | header => exact decide_eq_true h
  | invalid => exact decide_eq_true h
  | bit0 => exact decide_eq_true h
  | bit1 => exact decide_eq_true h

theorem encodeWord_symbolRow (cfg : Config) (h : symbolRegion sym mark space) :
    encodeWord cfg (symbolRow sym mark space) = .pair mark space := by
  cases sym with
  | endFrame => cases h; rfl
  | header => rfl
  | invalid => rfl
  | bit0 => rfl
  | bit1 => rfl

/-- A SYM row on a pair of its region outputs its symbol (R111, log 11). -/
theorem exec_symbolRow (s : State) (h : symbolRegion sym mark space) :
    exec (symbolRow sym mark space) s = .next (s.emit (.symbol sym)) := by
  have hverdict : exec (symbolRow sym mark space) s = .next (s.emit (.symbol (classify mark space))) := by
    cases sym with
    | endFrame => cases h; rfl
    | header => rfl
    | invalid => rfl
    | bit0 => rfl
    | bit1 => rfl
  rw [hverdict, classify_of_symbolRegion h]

end

/-- With a space, a pair outside the Header region is outside its two marks' and spaces' ranges. -/
theorem not_regionHeader_iff {mark space : Nat} (hs : 1 ≤ space) :
    ¬ regionHeader mark space ↔ ¬ ((2701 ≤ mark ∧ space < mark) ∨ (1601 ≤ space ∧ mark < space)) :=
  not_congr (and_iff_right hs)

/-- Settles O2: a verdict is a symbol exactly on its region; a Bit1's mark of at most 550 leaves `1600 < space` to the
Header region. -/
theorem regionsAreTheClassifiersVerdicts : Obligations.RegionsAreTheClassifiersVerdicts := by
  intro s mark space
  have hspelled {rest : Prop} :
      1 ≤ space ∧ ¬ regionHeader mark space ∧ rest ↔
        1 ≤ space ∧ ¬ ((2701 ≤ mark ∧ space < mark) ∨ (1601 ≤ space ∧ mark < space)) ∧ rest :=
    and_congr_right fun hs => and_congr_left' (not_regionHeader_iff hs)
  refine ⟨classify mark space, exec_classify mark space s, classify_eq_iff_symbolRegion, classify_eq_iff_symbolRegion,
    classify_eq_iff_symbolRegion.trans hspelled, classify_eq_iff_symbolRegion.trans hspelled,
    classify_eq_iff_symbolRegion.trans hspelled, fun h => ?bit1_space⟩
  case bit1_space =>
    obtain ⟨hs, hh, -, hhi, hge⟩ := classify_eq_iff_symbolRegion.mp h
    omega

/-- Settles O3: a row's well-formedness is that its pair lies in its region. -/
theorem symbolRowsOutputTheirSymbol : Obligations.SymbolRowsOutputTheirSymbol := by
  intro s mark space
  refine ⟨rfl, fun h => ?header, fun h => ?invalid, fun h => ?bit0, fun h => ?bit1⟩
  case header => exact exec_symbolRow (sym := .header) s (of_decide_eq_true (p := regionHeader mark space) h)
  case invalid => exact exec_symbolRow (sym := .invalid) s (of_decide_eq_true (p := regionInvalid mark space) h)
  case bit0 => exact exec_symbolRow (sym := .bit0) s (of_decide_eq_true (p := regionBit0 mark space) h)
  case bit1 => exact exec_symbolRow (sym := .bit1) s (of_decide_eq_true (p := regionBit1 mark space) h)

/-- Settles O4: the instruction is the row of the region that holds the pair. -/
theorem pairRowsAgreeWithClassify : Obligations.PairRowsAgreeWithClassify := by
  intro s mark space
  obtain ⟨sym, h⟩ := exists_symbolRegion mark space
  refine ⟨symbolRow sym mark space, ?decode, symbolRow_wellFormed s.cfg h, encodeWord_symbolRow s.cfg h, ?exec⟩
  case decode => rw [decodeWord, decodePair_of_symbolRegion h]
  case exec => rw [exec_symbolRow s h, exec_classify, classify_of_symbolRegion h]

/-- Settles O35: the header pair and the two bit pairs by R243's constraints, the end pair by its space. -/
theorem transmitDurationsClassifyBack : Obligations.TransmitDurationsClassifyBack := by
  intro s hd
  have hbit (b : Bool) : exec (.classify (bitPair s.cfg b).mark (bitPair s.cfg b).space) s =
      .next (s.emit (.symbol (if b then .bit1 else .bit0))) := by
    rw [exec_classify, classify_bitPair hd]
  refine ⟨?header, hbit false, hbit true, ?endFrame⟩
  case header => rw [exec_classify, classify_headerPair hd]
  case endFrame => rw [exec_classify, classify_space_zero]

end Sys2Proof.Machine
end

section
/-! PROOFS. The decoder and the encoder are inverse (30_encoding.md R81, R83, R84, R111). -/

namespace Sys2Proof

open Sys2Proof.Machine

section
variable {cfg : Config} {bytes : List Byte} {i : Instr}

/-- What a byte string is that the frame port reads as an instruction: one of the two formats, checksum and header
holding. -/
theorem decodeFrame_ok (h : decodeFrame cfg bytes = .ok i) :
    sum8 bytes (bytes.length - 1) = byteAt bytes (bytes.length - 1) ∧ bytes.take 4 = FRAME_HDR ∧
      ((bytes.length = 8 ∧ i = decodeF8 cfg bytes) ∨ (bytes.length = 19 ∧ i = .frameState (StateFrame.ofBytes bytes))) := by
  simp only [decodeFrame] at h
  split at h
  · cases h
  rename_i hlen
  split at h
  · cases h
  rename_i hsum
  split at h
  · cases h
  rename_i hhdr
  refine ⟨not_not.mp hsum, not_not.mp hhdr, ?_⟩
  split at h
  · rename_i h8
    cases h
    exact .inl ⟨h8, rfl⟩
  · rename_i h8
    cases h
    exact .inr ⟨not_not.mp fun h19 => hlen ⟨h8, h19⟩, rfl⟩

/-- The row of a short command encodes as its frame. -/
theorem encodeWord_frameShortInstr (cfg : Config) (ign : BitVec 7) (c : ShortCommand) :
    encodeWord cfg (frameShortInstr ign c) = .frame (shortFrame cfg ign c) := by
  cases c <;> rfl

theorem frameShortInstr_wellFormed (cfg : Config) (ign : BitVec 7) (c : ShortCommand) :
    (frameShortInstr ign c).wellFormed cfg = true := by
  cases c <;> rfl

/-- The F8 row a byte string reads as is well formed and encodes the frame of the byte string's fields. -/
theorem decodeF8_encodes (cfg : Config) (bytes : List Byte) :
    (decodeF8 cfg bytes).wellFormed cfg = true ∧
      encodeWord cfg (decodeF8 cfg bytes) = .frame (frame8 ((byteAt bytes 4).getLsbD 7)
        ((byteAt bytes 4).extractLsb' 0 7) (byteAt bytes 5) (byteAt bytes 6)) := by
  cases hk : (byteAt bytes 4).getLsbD 7 with
  | false =>
    rw [decodeF8, if_pos hk]
    exact ⟨rfl, rfl⟩
  | true =>
    rw [decodeF8, if_neg (ne_false_of_eq_true hk)]
    cases hc : cfg.shortOf? (le16 (byteAt bytes 5) (byteAt bytes 6)) with
    | none => exact ⟨by simp [Instr.wellFormed, hc], by simp [encodeWord]⟩
    | some c =>
      refine ⟨frameShortInstr_wellFormed cfg _ c, ?_⟩
      simp [encodeWord_frameShortInstr, shortFrame, shortCode_of_shortOf? hc]

/-- The frame port's half of O56. -/
theorem encodeWord_of_decodeFrame (h : decodeFrame cfg bytes = .ok i) :
    i.wellFormed cfg = true ∧ encodeWord cfg i = .frame bytes := by
  obtain ⟨hsum, hhdr, ⟨hlen, rfl⟩ | ⟨hlen, rfl⟩⟩ := decodeFrame_ok h
  · rw [hlen] at hsum
    obtain ⟨hwf, henc⟩ := decodeF8_encodes cfg bytes
    exact ⟨hwf, henc.trans (congrArg PortWord.frame (eq_frame8 hlen hsum hhdr).symm)⟩
  · rw [hlen] at hsum
    exact ⟨rfl, congrArg PortWord.frame (bytes_ofBytes hlen hsum hhdr)⟩

end

/-- Settles O56: the two layers of PAIR and frame rows by their own lemmas; a port's own operations hold their operands
as they stand. -/
theorem encodeOfDecodeIsIdentity : Obligations.EncodeOfDecodeIsIdentity := by
  intro cfg w i h
  cases w with
  | pair mark space =>
    obtain ⟨sym, hsym⟩ := exists_symbolRegion mark space
    rw [decodeWord, decodePair_of_symbolRegion hsym] at h
    cases h
    exact ⟨symbolRow_wellFormed cfg hsym, encodeWord_symbolRow cfg hsym⟩
  | frame bytes => exact encodeWord_of_decodeFrame h
  | symbol r sym => cases h; cases sym <;> exact ⟨rfl, rfl⟩
  | decode bytes length =>
    rw [decodeWord] at h
    split at h
    · cases h
    · rename_i hlen
      cases h
      exact ⟨decide_eq_true (Nat.not_lt.mp hlen), rfl⟩
  | encode c capacity => cases c <;> cases h <;> exact ⟨rfl, rfl⟩
  | classify mark space => cases h; exact ⟨rfl, rfl⟩
  | pulseEncode data => cases h; exact ⟨rfl, rfl⟩
  | rxPair r mark space => cases h; exact ⟨rfl, rfl⟩
  | rxGap r => cases h; exact ⟨rfl, rfl⟩
  | txCommand c => cases h; exact ⟨rfl, rfl⟩
  | reset r => cases h; exact ⟨rfl, rfl⟩

open Sys2Proof.Laws in
/-- Settles O55: each row by its own law of `Laws/PerInstr`. -/
theorem decodeOfEncodeIsIdentity : Obligations.DecodeOfEncodeIsIdentity := by
  intro cfg i hinj hwf
  suffices hrow : RoundTrip.Statement i from hrow cfg hinj hwf
  cases i with
  | symEnd mark => exact RoundTrip.symEnd mark
  | symHeader mark space => exact RoundTrip.symHeader mark space
  | symInvalid mark space => exact RoundTrip.symInvalid mark space
  | symBit0 mark space => exact RoundTrip.symBit0 mark space
  | symBit1 mark space => exact RoundTrip.symBit1 mark space
  | frameHeaderProbe ign byte5 byte6 => exact RoundTrip.frameHeaderProbe ign byte5 byte6
  | frameShortEion ign => exact RoundTrip.frameShortEion ign
  | frameShortPatrol ign => exact RoundTrip.frameShortPatrol ign
  | frameShortQuiet ign => exact RoundTrip.frameShortQuiet ign
  | frameShortPowerful ign => exact RoundTrip.frameShortPowerful ign
  | frameShortCheck ign => exact RoundTrip.frameShortCheck ign
  | frameShortSetAir1 ign => exact RoundTrip.frameShortSetAir1 ign
  | frameShortSetAir2 ign => exact RoundTrip.frameShortSetAir2 ign
  | frameShortSetAir3 ign => exact RoundTrip.frameShortSetAir3 ign
  | frameShortAcReset ign => exact RoundTrip.frameShortAcReset ign
  | frameShortUnknown ign code => exact RoundTrip.frameShortUnknown ign code
  | frameState f => exact RoundTrip.frameState f
  | classify mark space => exact RoundTrip.classify mark space
  | asmHeader r => exact RoundTrip.asmHeader r
  | asmInvalid r => exact RoundTrip.asmInvalid r
  | asmEnd r => exact RoundTrip.asmEnd r
  | asmBit0 r => exact RoundTrip.asmBit0 r
  | asmBit1 r => exact RoundTrip.asmBit1 r
  | decode bytes length => exact RoundTrip.decode bytes length
  | encodeShort c capacity => exact RoundTrip.encodeShort c capacity
  | encodeState c capacity => exact RoundTrip.encodeState c capacity
  | pulseEncode data => exact RoundTrip.pulseEncode data
  | rxPair r mark space => exact RoundTrip.rxPair r mark space
  | rxGap r => exact RoundTrip.rxGap r
  | txCommand c => exact RoundTrip.txCommand c
  | reset r => exact RoundTrip.reset r

/-- Settles O57: the decoder is run on the five words. -/
theorem writtenOutWordsDecode : Obligations.WrittenOutWordsDecode :=
  ⟨by decide, by decide, by decide, by decide, by decide⟩

end Sys2Proof
end

section
/-! PROOFS. The assembler's data bits (R154) and error rows (R152, D5), step by step. -/

namespace Sys2Proof.Machine

/-- The parameter's reading of the error rows (D5): raising a frame error writes `in_frame` alone. -/
theorem raise_literal {cfg : Config} (h : cfg.literalErrorRows = true) (a : FrameAssemblyState) (e : FrameError) :
    a.raise cfg e = ({ a with inFrame := false }, .fail e) := by
  simp [FrameAssemblyState.raise, h]

section Exec
variable {s : State} {r : Nat} {a : FrameAssemblyState} (ha : s.streams[r]? = some a)
include ha

theorem exec_asmInvalid :
    exec (.asmInvalid r) s =
      .next ((s.setStream r (a.raise s.cfg .invalidSymbol).1).emit (.asm (.fail .invalidSymbol))) :=
  exec_decodeSymbol .invalid ha

variable (hf : a.inFrame = true)
include hf

/-- A data bit's operation in a frame is `push_bit` (R154). -/
theorem exec_bitInstr_inFrame (b : Bool) :
    exec (bitInstr r b) s = .next ((s.setStream r (pushBit s.cfg b a).1).emit (.asm (pushBit s.cfg b a).2)) := by
  rw [exec_bitInstr ha, asmStep_bit s.cfg b hf]

end Exec

/-- Settles O6: the default error rows idle the stream. -/
theorem asmInvalidFailsAndIdles : Obligations.AsmInvalidFailsAndIdles := by
  intro s r a hd ha
  rw [exec_asmInvalid ha, raise_default hd]
  rfl

/-- Settles O8: `push_bit`'s first case, whose byte is `setBit`. -/
theorem dataBitAccumulates : Obligations.DataBitAccumulates := by
  intro s r a b ha hf hlt
  have hcount : (⟨a.bitCount.val + 1, by omega⟩ : Fin 8) = a.bitCount + 1 := by
    apply Fin.ext
    rw [Fin.val_add]
    exact (Nat.mod_eq_of_lt (by omega)).symm
  refine ⟨setBit a.currentByte a.bitCount b, fun j hj => setBit_getLsbD _ _ a.bitCount.isLt hj, ?_⟩
  rw [exec_bitInstr_inFrame ha hf, pushBit_accumulates s.cfg b hlt, hcount]

/-- Settles O9: `push_bit`'s second case, and the buffer's law of a read after a write. -/
theorem eighthBitStoresTheByte : Obligations.EighthBitStoresTheByte := by
  intro s r a b ha hf h7 hroom hw
  refine ⟨setBit a.currentByte 7 b, (pushBit s.cfg b a).1, fun j hj => setBit_getLsbD _ _ (by omega) hj, ?_⟩
  rw [exec_bitInstr_inFrame ha hf, pushBit_completes s.cfg b h7 hroom]
  exact ⟨rfl, hf, rfl, rfl, rfl, read_write_same _ _ hw, fun k hk => read_write_other _ hk⟩

/-- Settles O10: `push_bit`'s third case, under the default error rows. -/
theorem twentiethByteOverflows : Obligations.TwentiethByteOverflows := by
  intro s r a b hd ha hf h7 hfull
  refine ⟨setBit a.currentByte 7 b, fun j hj => setBit_getLsbD _ _ (by omega) hj, ?_⟩
  rw [exec_bitInstr_inFrame ha hf, pushBit_overflows s.cfg b h7 hfull, raise_default hd]
  rfl

/-- Settles O12: both errors go through `raise`, whose literal reading writes `in_frame` alone. -/
theorem literalErrorRowsWriteInFrameAlone : Obligations.LiteralErrorRowsWriteInFrameAlone := by
  intro s r a hl ha
  refine ⟨?invalid, fun hf h7 hfull b =>
    ⟨setBit a.currentByte 7 b, fun j hj => setBit_getLsbD _ _ (by omega) hj, ?overflow⟩⟩
  case invalid => rw [exec_asmInvalid ha, raise_literal hl]
  case overflow => rw [exec_bitInstr_inFrame ha hf, pushBit_overflows s.cfg b h7 hfull, raise_literal hl]

end Sys2Proof.Machine
end

section
/-! PROOFS. What the assembler's step can report for each symbol (R158), and what it depends on (R36, R159). -/

namespace Sys2Proof.Machine

/-- The five symbols as the assembler tells them apart: three of their own row, and a data bit. -/
theorem symbol_bit_cases {P : Symbol → Prop} (header : P .header) (invalid : P .invalid) (endFrame : P .endFrame)
    (bit : ∀ b : Bool, P (if b then .bit1 else .bit0)) (sym : Symbol) : P sym := by
  cases sym with
  | header => exact header
  | invalid => exact invalid
  | endFrame => exact endFrame
  | bit0 => exact bit false
  | bit1 => exact bit true

/-- R154: a data bit in a frame reports None or the overflow. -/
theorem pushBit_event (cfg : Config) (b : Bool) (a : FrameAssemblyState) :
    (pushBit cfg b a).2 = .none ∨ (pushBit cfg b a).2 = .fail .overflow := by
  rcases bit_cases a with hlt | ⟨h7, hroom⟩ | ⟨h7, hfull⟩
  · exact .inl (by rw [pushBit_accumulates cfg b hlt])
  · exact .inl (by rw [pushBit_completes cfg b h7 hroom])
  · exact .inr (by rw [pushBit_overflows cfg b h7 hfull, raise_event])

/-- R158's list for a data bit, in a frame or outside. -/
theorem asmStep_bit_event (cfg : Config) (b : Bool) (a : FrameAssemblyState) :
    (asmStep cfg a (if b then .bit1 else .bit0)).2 = .none ∨
      (asmStep cfg a (if b then .bit1 else .bit0)).2 = .fail .overflow := by
  cases hf : a.inFrame with
  | false => exact .inl (by rw [asmStep_bit_idle cfg b hf])
  | true => rw [asmStep_bit cfg b hf]; exact pushBit_event cfg b a

/-- R158's list for an End. -/
theorem asmEnd_event (a : FrameAssemblyState) :
    (∃ n data, (asmEnd a).2 = .frameComplete n data) ∨ (asmEnd a).2 = .fail .incompleteByte := by
  by_cases hb : a.bitCount = 0
  · exact .inl ⟨_, _, by rw [asmEnd_aligned hb]⟩
  · exact .inr (by rw [asmEnd_unaligned hb])

theorem quiescent_iff (a : FrameAssemblyState) :
    a.quiescent = true ↔ a.inFrame = false ∧ a.bitCount = 0 ∧ a.byteCount = 0 := by
  simp [FrameAssemblyState.quiescent, and_assoc]

section
variable {cfg : Config} (hd : cfg.literalErrorRows = false)
include hd

/-- Under the default error rows a data bit that reports leaves the stream idle. -/
theorem pushBit_quiescent {b : Bool} {a : FrameAssemblyState} (h : (pushBit cfg b a).2 ≠ .none) :
    (pushBit cfg b a).1.quiescent = true := by
  rcases bit_cases a with hlt | ⟨h7, hroom⟩ | ⟨h7, hfull⟩
  · exact absurd (by rw [pushBit_accumulates cfg b hlt]) h
  · exact absurd (by rw [pushBit_completes cfg b h7 hroom]) h
  · rw [pushBit_overflows cfg b h7 hfull, raise_default hd]; rfl

/-- R158: every event but None leaves the stream idle. -/
theorem asmStep_quiescent {a : FrameAssemblyState} {sym : Symbol} (h : (asmStep cfg a sym).2 ≠ .none) :
    (asmStep cfg a sym).1.quiescent = true := by
  induction sym using symbol_bit_cases with
  | header => exact absurd rfl h
  | invalid => rw [asmStep, asmInvalid, raise_default hd]; rfl
  | endFrame => exact asmEnd_quiescent a
  | bit b =>
    cases hf : a.inFrame with
    | false => exact absurd (by rw [asmStep_bit_idle cfg b hf]) h
    | true => rw [asmStep_bit cfg b hf] at h ⊢; exact pushBit_quiescent hd h

end

/-- If an assembler step answers next, the stream exists and its registers and one event changed. -/
theorem exec_decodeSymbol_next {s t : State} {r : Nat} {sym : Symbol} (h : exec (decodeSymbol r sym) s = .next t) :
    ∃ a, s.streams[r]? = some a ∧
      t = (s.setStream r (asmStep s.cfg a sym).1).emit (.asm (asmStep s.cfg a sym).2) := by
  cases sym <;> exact onStream_next h

/-- Settles O13: the event's list by symbol, and the idle state after every event but None. -/
theorem assemblerEventsLeaveItIdle : Obligations.AssemblerEventsLeaveItIdle := by
  intro s t r sym hd h
  obtain ⟨a, ha, rfl⟩ := exec_decodeSymbol_next h
  refine ⟨_, _, rfl, getElem?_set_stream ha, fun hev => (quiescent_iff _).mp (asmStep_quiescent hd hev),
    ?header, ?invalid, ?endFrame, ?bit⟩
  case header => rintro rfl; rfl
  case invalid => rintro rfl; rfl
  case endFrame => rintro rfl; exact asmEnd_event a
  case bit =>
    rintro (rfl | rfl)
    · exact asmStep_bit_event s.cfg false a
    · exact asmStep_bit_event s.cfg true a

/-- Two streams agree on the flag and the counters, whatever their bytes are (R159). -/
def FrameAssemblyState.sameControl (a b : FrameAssemblyState) : Prop :=
  a.inFrame = b.inFrame ∧ a.bitCount = b.bitCount ∧ a.byteCount = b.byteCount

/-- The stream with other bytes in it. -/
def FrameAssemblyState.withContent (a : FrameAssemblyState) (v : Byte) (m : Memory) : FrameAssemblyState :=
  { a with currentByte := v, buffer := m }

/-- Raising an error looks at no register. -/
theorem raise_sameControl {a b : FrameAssemblyState} (cfg : Config) (e : FrameError) (h : a.sameControl b) :
    (a.raise cfg e).1.sameControl (b.raise cfg e).1 := by
  obtain ⟨-, hk, hn⟩ := h
  unfold FrameAssemblyState.raise
  split
  · exact ⟨rfl, hk, hn⟩
  · exact ⟨rfl, rfl, rfl⟩

section Content
variable (cfg : Config) (a : FrameAssemblyState) (v : Byte) (m : Memory)

/-- R159 for a data bit in a frame; its event carries no byte. -/
theorem pushBit_ignores_content (b : Bool) :
    (pushBit cfg b a).1.sameControl (pushBit cfg b (a.withContent v m)).1 ∧
      (pushBit cfg b a).2 = (pushBit cfg b (a.withContent v m)).2 := by
  rcases bit_cases a with hlt | ⟨h7, hroom⟩ | ⟨h7, hfull⟩
  · rw [pushBit_accumulates cfg b hlt, pushBit_accumulates (a := a.withContent v m) cfg b hlt]
    exact ⟨⟨rfl, rfl, rfl⟩, rfl⟩
  · rw [pushBit_completes cfg b h7 hroom, pushBit_completes (a := a.withContent v m) cfg b h7 hroom]
    exact ⟨⟨rfl, rfl, rfl⟩, rfl⟩
  · rw [pushBit_overflows cfg b h7 hfull, pushBit_overflows (a := a.withContent v m) cfg b h7 hfull]
    exact ⟨raise_sameControl cfg .overflow (And.intro rfl ⟨rfl, rfl⟩), rfl⟩

/-- R159 for every symbol: other bytes change the event in the bytes a FrameComplete carries, and nothing else. -/
theorem asmStep_ignores_content (sym : Symbol) :
    (asmStep cfg a sym).1.sameControl (asmStep cfg (a.withContent v m) sym).1 ∧
      (asmStep cfg a sym).2.shape = (asmStep cfg (a.withContent v m) sym).2.shape := by
  induction sym using symbol_bit_cases with
  | header => exact ⟨⟨rfl, rfl, rfl⟩, rfl⟩
  | invalid => exact ⟨raise_sameControl cfg .invalidSymbol ⟨rfl, rfl, rfl⟩, rfl⟩
  | endFrame =>
    by_cases hb : a.bitCount = 0
    · rw [asmStep, asmStep, asmEnd_aligned hb, asmEnd_aligned (a := a.withContent v m) hb]
      exact ⟨⟨rfl, rfl, rfl⟩, rfl⟩
    · rw [asmStep, asmStep, asmEnd_unaligned hb, asmEnd_unaligned (a := a.withContent v m) hb]
      exact ⟨⟨rfl, rfl, rfl⟩, rfl⟩
  | bit b =>
    cases hf : a.inFrame with
    | false =>
      rw [asmStep_bit_idle cfg b hf, asmStep_bit_idle (a := a.withContent v m) cfg b hf]
      exact ⟨⟨rfl, rfl, rfl⟩, rfl⟩
    | true =>
      rw [asmStep_bit cfg b hf, asmStep_bit (a := a.withContent v m) cfg b hf]
      obtain ⟨hcontrol, hevent⟩ := pushBit_ignores_content cfg a v m b
      exact ⟨hcontrol, congrArg AsmEvent.shape hevent⟩

end Content

/-- Settles O14: the two runs are one assembler step of streams that differ in their bytes. -/
theorem assemblerIgnoresByteContent : Obligations.AssemblerIgnoresByteContent := by
  intro s t t' r a v m sym ha h h'
  have ha' := getElem?_set_stream (b := a.withContent v m) ha
  rw [exec_decodeSymbol sym ha] at h
  rw [exec_decodeSymbol sym ha'] at h'
  cases h
  cases h'
  obtain ⟨⟨hf, hk, hn⟩, hshape⟩ := asmStep_ignores_content s.cfg a v m sym
  exact ⟨_, _, _, _, getElem?_set_stream ha, getElem?_set_stream ha', hf, hk, hn, rfl, rfl, hshape⟩

/-! ## What an output can reveal (R36) -/

/-- Idle streams with both counters 0 show nothing of their bytes. -/
theorem sameVisible_of_quiescent {a b : FrameAssemblyState} (ha : a.quiescent = true) (hb : b.quiescent = true) :
    a.sameVisible b := by
  obtain ⟨haf, hak, han⟩ := (quiescent_iff a).mp ha
  obtain ⟨hbf, hbk, hbn⟩ := (quiescent_iff b).mp hb
  refine ⟨by rw [haf, hbf], by rw [hak, hbk], by rw [han, hbn], fun k hlt => ?_, fun k hlt => ?_⟩
  · simp [han] at hlt
  · simp [hak] at hlt

theorem raise_sameVisible {a b : FrameAssemblyState} (cfg : Config) (e : FrameError) (h : a.sameVisible b) :
    (a.raise cfg e).1.sameVisible (b.raise cfg e).1 := by
  obtain ⟨-, hk, hn, hbytes, hbits⟩ := h
  unfold FrameAssemblyState.raise
  split
  · exact ⟨rfl, hk, hn, hbytes, hbits⟩
  · exact sameVisible_of_quiescent rfl rfl

/-- Streams that agree on what is visible differ in their bytes alone. -/
theorem withContent_of_sameVisible {a b : FrameAssemblyState} (h : a.sameVisible b) :
    a.withContent b.currentByte b.buffer = b := by
  obtain ⟨hf, hk, hn, -, -⟩ := h
  obtain ⟨f, k, n, c, m⟩ := b
  simp only at hf hk hn
  rw [FrameAssemblyState.withContent, hf, hk, hn]

section Visible
variable {a : FrameAssemblyState} {v : Byte} {m : Memory} (h : a.sameVisible (a.withContent v m))
include h

/-- One more bit of the current byte becomes visible, and it is the bit received. -/
theorem setBit_visible (b : Bool) {j : Nat} (hj : j < a.bitCount.val + 1) :
    (setBit a.currentByte a.bitCount b).getLsbD j = (setBit v a.bitCount b).getLsbD j := by
  obtain ⟨-, -, -, -, hbits⟩ := h
  have hlt := a.bitCount.isLt
  rw [setBit_getLsbD _ _ hlt (by omega), setBit_getLsbD _ _ hlt (by omega)]
  split
  · rfl
  · exact hbits j (by omega)

/-- At the eighth bit the whole byte is visible. -/
theorem setBit_eighth (b : Bool) (h7 : a.bitCount = 7) : setBit a.currentByte 7 b = setBit v 7 b := by
  refine BitVec.eq_of_getLsbD_eq fun j hj => ?_
  have hvisible := setBit_visible h b (j := j)
  rw [h7] at hvisible
  exact hvisible hj

/-- The bytes an End reports are visible. -/
theorem slice_visible : a.buffer.slice a.byteCount.val = m.slice a.byteCount.val := by
  obtain ⟨-, -, -, hbytes, -⟩ := h
  exact List.map_congr_left fun k hk => hbytes k (List.mem_range.mp hk)

variable (cfg : Config) (hw : a.buffer.wf = true) (hm : m.wf = true)
include hw hm

/-- R36 for a data bit in a frame. -/
theorem pushBit_sameVisible (b : Bool) :
    (pushBit cfg b a).1.sameVisible (pushBit cfg b (a.withContent v m)).1 := by
  obtain ⟨-, -, -, hbytes, -⟩ := id h
  rcases bit_cases a with hlt | ⟨h7, hroom⟩ | ⟨h7, hfull⟩
  · rw [pushBit_accumulates cfg b hlt, pushBit_accumulates (a := a.withContent v m) cfg b hlt]
    exact ⟨rfl, rfl, rfl, hbytes, fun j hj => setBit_visible h b hj⟩
  · rw [pushBit_completes cfg b h7 hroom, pushBit_completes (a := a.withContent v m) cfg b h7 hroom]
    refine ⟨rfl, rfl, rfl, fun k hk => ?stored, fun j hj => absurd hj (Nat.not_lt_zero j)⟩
    case stored =>
      change (a.buffer.write a.byteCount.val _).read k = (m.write a.byteCount.val (setBit v 7 b)).read k
      rw [setBit_eighth h b h7]
      by_cases hnew : k = a.byteCount.val
      · rw [hnew, read_write_same _ _ hw, read_write_same _ _ hm]
      · rw [read_write_other _ hnew, read_write_other _ hnew]
        exact hbytes k (Nat.lt_of_le_of_ne (Nat.le_of_lt_succ hk) hnew)
  · rw [pushBit_overflows cfg b h7 hfull, pushBit_overflows (a := a.withContent v m) cfg b h7 hfull]
    exact raise_sameVisible cfg .overflow (And.intro rfl ⟨rfl, rfl, hbytes, fun j hj => absurd hj (Nat.not_lt_zero j)⟩)

/-- R36 for every symbol. -/
theorem asmStep_sameVisible (sym : Symbol) :
    (asmStep cfg a sym).1.sameVisible (asmStep cfg (a.withContent v m) sym).1 ∧
      (asmStep cfg a sym).2 = (asmStep cfg (a.withContent v m) sym).2 := by
  induction sym using symbol_bit_cases with
  | header =>
    exact ⟨⟨rfl, rfl, rfl, fun k hk => absurd hk (Nat.not_lt_zero k), fun k hk => absurd hk (Nat.not_lt_zero k)⟩, rfl⟩
  | invalid => exact ⟨raise_sameVisible cfg .invalidSymbol h, rfl⟩
  | endFrame =>
    refine ⟨sameVisible_of_quiescent (asmEnd_quiescent _) (asmEnd_quiescent _), ?_⟩
    by_cases hb : a.bitCount = 0
    · rw [asmStep, asmStep, asmEnd_aligned hb, asmEnd_aligned (a := a.withContent v m) hb, slice_visible h]
      rfl
    · rw [asmStep, asmStep, asmEnd_unaligned hb, asmEnd_unaligned (a := a.withContent v m) hb]
  | bit b =>
    cases hf : a.inFrame with
    | false =>
      rw [asmStep_bit_idle cfg b hf, asmStep_bit_idle (a := a.withContent v m) cfg b hf]
      exact ⟨h, rfl⟩
    | true =>
      rw [asmStep_bit cfg b hf, asmStep_bit (a := a.withContent v m) cfg b hf]
      exact ⟨pushBit_sameVisible h cfg hw hm b, (pushBit_ignores_content cfg a v m b).2⟩

end Visible

/-- The operations that step the assembler of stream `r`: ASM, RX_PAIR and RX_GAP. -/
abbrev assemblesOn (r : Nat) (i : Instr) : Prop :=
  (∃ sym, i = decodeSymbol r sym) ∨ (∃ mark space, i = .rxPair r mark space) ∨ i = .rxGap r

/-- Each of them is one assembler step, with an output made of its event. -/
theorem exec_assembles (cfg : Config) {r : Nat} {i : Instr} (hi : assemblesOn r i) :
    ∃ (sym : Symbol) (g : AsmEvent → Output), ∀ (u : State), u.cfg = cfg →
      exec i u = onStream r (fun a => ((asmStep cfg a sym).1, g (asmStep cfg a sym).2)) u := by
  rcases hi with ⟨sym, rfl⟩ | ⟨mark, space, rfl⟩ | rfl
  · exact ⟨sym, .asm, fun u hu => by rw [← hu]; cases sym <;> rfl⟩
  · exact ⟨classify mark space, fun ev => .rx (deliver cfg ev), fun u hu => by rw [← hu]; rfl⟩
  · exact ⟨.endFrame, fun ev => .rx (deliver cfg ev), fun u hu => by rw [← hu]; rfl⟩

/-- Settles O15: both runs are one assembler step on streams that differ in hidden bytes alone. -/
theorem hiddenStateIsNeverRevealed : Obligations.HiddenStateIsNeverRevealed := by
  intro s t t' r a b i ha hv hwa hwb hi h h'
  obtain ⟨sym, g, hexec⟩ := exec_assembles s.cfg hi
  have hb := getElem?_set_stream (b := b) ha
  rw [hexec s rfl, onStream_some ha] at h
  rw [hexec (s.setStream r b) rfl, onStream_some hb] at h'
  cases h
  cases h'
  have hb' := withContent_of_sameVisible hv
  rw [← hb'] at hv
  obtain ⟨hvisible, hevent⟩ := asmStep_sameVisible hv s.cfg hwa hwb sym
  rw [hb'] at hvisible hevent
  refine ⟨?outputs, _, _, getElem?_set_stream ha, getElem?_set_stream hb, hvisible⟩
  case outputs => simp only [emit_outputs, setStream_outputs, hevent]

end Sys2Proof.Machine
end

section
/-! PROOFS. Several receive streams (R64, R330): an operation on one leaves the others, and RESET (R350, R351). -/

namespace Sys2Proof.Machine

/-- The operations on stream `r`: those that step its assembler, and RESET. -/
abbrev operatesOn (r : Nat) (i : Instr) : Prop :=
  (∃ sym, i = decodeSymbol r sym) ∨ (∃ mark space, i = .rxPair r mark space) ∨ i = .rxGap r ∨ i = .reset r

theorem reset_or_assembles {r : Nat} {i : Instr} (hi : operatesOn r i) : i = .reset r ∨ assemblesOn r i := by
  rcases hi with hsym | hpair | hgap | hreset
  · exact .inr (.inl hsym)
  · exact .inr (.inr (.inl hpair))
  · exact .inr (.inr (.inr hgap))
  · exact .inl hreset

/-- RESET of a stream the system does not have. -/
theorem exec_reset_none {s : State} {r : Nat} (h : s.streams[r]? = none) :
    exec (.reset r) s = .fault (.noSuchReceiver r) := by
  simp [exec, execReset, h]

/-- If RESET answers next, the stream exists. -/
theorem exists_stream_of_exec_reset {s t : State} {r : Nat} (h : exec (.reset r) s = .next t) :
    ∃ a, s.streams[r]? = some a := by
  cases ha : s.streams[r]? with
  | none => rw [exec_reset_none ha] at h; cases h
  | some a => exact ⟨a, rfl⟩

/-- What an operation on stream `r` writes: that stream, and it hands back outputs; RESET moves the free-value counter
(log 6). -/
theorem exec_stream_writes {s t : State} {r : Nat} {i : Instr} (hi : operatesOn r i) (h : exec i s = .next t) :
    (∃ b, t.streams = s.streams.set r b) ∧ t.cfg = s.cfg ∧ t.inputs = s.inputs ∧
      (i ≠ .reset r → t.freeCount = s.freeCount) := by
  rcases reset_or_assembles hi with rfl | hi
  · obtain ⟨a, ha⟩ := exists_stream_of_exec_reset h
    rw [exec_reset ha] at h
    cases h
    exact ⟨⟨_, rfl⟩, rfl, rfl, fun hne => absurd rfl hne⟩
  · obtain ⟨sym, g, hexec⟩ := exec_assembles s.cfg hi
    rw [hexec s rfl] at h
    obtain ⟨a, -, rfl⟩ := onStream_next h
    exact ⟨⟨_, rfl⟩, rfl, rfl, fun _ => rfl⟩

/-- Settles O17: only stream `r` of the list is set. -/
theorem streamOperationsAreLocal : Obligations.StreamOperationsAreLocal := by
  intro s t r i hi h
  obtain ⟨⟨b, hstreams⟩, hcfg, hinputs, hfree⟩ := exec_stream_writes hi h
  refine ⟨fun q hq => ?other, ?length, hcfg, hinputs, hfree⟩
  case other => rw [hstreams, List.getElem?_set_ne hq.symm]
  case length => rw [hstreams, List.length_set]

/-- Settles O18: each step reads and sets its own stream, so the other's step finds what it would have found. -/
theorem stepsOfDifferentStreamsCommute : Obligations.StepsOfDifferentStreamsCommute := by
  intro s t u t' u' q r sym sym' hqr h1 h2 h1' h2'
  obtain ⟨a, ha, rfl⟩ := exec_decodeSymbol_next h1
  obtain ⟨b, hb, rfl⟩ := exec_decodeSymbol_next h1'
  have hb' : (s.streams.set q (asmStep s.cfg a sym).1)[r]? = some b := by rw [List.getElem?_set_ne hqr, hb]
  have ha' : (s.streams.set r (asmStep s.cfg b sym').1)[q]? = some a := by rw [List.getElem?_set_ne hqr.symm, ha]
  rw [exec_decodeSymbol sym' hb'] at h2
  rw [exec_decodeSymbol sym ha'] at h2'
  cases h2
  cases h2'
  exact ⟨List.set_comm _ _ hqr, _, _, List.append_assoc _ _ _, List.append_assoc _ _ _⟩

/-- Settles O54: every operation on a stream looks the stream up first. -/
theorem unknownReceiverFaults : Obligations.UnknownReceiverFaults := by
  intro s r i hr hi
  rcases reset_or_assembles hi with rfl | hi
  · exact exec_reset_none hr
  · obtain ⟨sym, g, hexec⟩ := exec_assembles s.cfg hi
    rw [hexec s rfl, onStream_none hr]

/-- Settles O44: RESET sets one stream to the registers of R37 and counts itself. -/
theorem resetIdlesOneStream : Obligations.ResetIdlesOneStream :=
  fun _ _ _ ha => ⟨_, _, exec_reset ha, rfl, rfl, rfl, rfl, rfl, rfl, rfl, rfl⟩

/-- Settles O45: all three leave the stream idle with both counters 0. -/
theorem resetLooksLikeEndOrInvalid : Obligations.ResetLooksLikeEndOrInvalid := by
  intro s t u v r hd ht hu hv
  obtain ⟨a, ha⟩ := exists_stream_of_exec_reset ht
  rw [exec_reset ha] at ht
  rw [exec_asmEnd ha] at hu
  rw [exec_asmInvalid ha, raise_default hd] at hv
  cases ht
  cases hu
  cases hv
  exact ⟨_, _, _, getElem?_set_stream ha, getElem?_set_stream ha, getElem?_set_stream ha,
    sameVisible_of_quiescent rfl (asmEnd_quiescent a), sameVisible_of_quiescent rfl rfl⟩

end Sys2Proof.Machine
end

section
/-! PROOFS. DECODE reads its length's bytes and no others (R189), refuses a short operand (U6), and finds any change of one
byte (R192). -/

namespace Sys2Proof.Machine

/-- Settles O27: the operand's length is looked at first. -/
theorem shortDecodeOperandIsRefused : Obligations.ShortDecodeOperandIsRefused :=
  fun _ _ _ h => if_pos h

section Append
variable {bytes : List Byte} (more : List Byte)

theorem byteAt_append {i : Nat} (h : i < bytes.length) : byteAt (bytes ++ more) i = byteAt bytes i := by
  rw [byteAt, byteAt, List.getD_append _ _ _ _ h]

theorem sum8_append {n : Nat} (h : n ≤ bytes.length) : sum8 (bytes ++ more) n = sum8 bytes n := by
  rw [sum8, sum8, List.take_append_of_le_length h]

/-- A state frame's fields are read from its nineteen bytes. -/
theorem ofBytes_append (h : 19 ≤ bytes.length) : StateFrame.ofBytes (bytes ++ more) = StateFrame.ofBytes bytes := by
  have hbyte {i : Nat} (hi : i < 19) : byteAt (bytes ++ more) i = byteAt bytes i := byteAt_append more (by omega)
  simp [StateFrame.ofBytes, hbyte]

/-- R189: every byte a step of DECODE reads is below `length`. -/
theorem codecDecode_append (cfg : Config) :
    codecDecode cfg (bytes ++ more) bytes.length = codecDecode cfg bytes bytes.length := by
  by_cases hn : bytes.length = 8 ∨ bytes.length = 19
  · have hbyte {i : Nat} (hi : i < bytes.length) : byteAt (bytes ++ more) i = byteAt bytes i := byteAt_append more hi
    have htake : (bytes ++ more).take 4 = bytes.take 4 := List.take_append_of_le_length (by omega)
    rw [codecDecode, codecDecode, sum8_append more (by omega), hbyte (by omega), htake]
    rcases hn with h8 | h19
    · rw [if_pos h8, if_pos h8, hbyte (by omega), hbyte (by omega), hbyte (by omega)]
    · have h8 : bytes.length ≠ LEN_SHORT := by rw [h19]; decide
      rw [if_neg h8, if_neg h8, ofBytes_append more (by omega)]
  · obtain ⟨h8, h19⟩ := not_or.mp hn
    rw [codecDecode_invalidLength h8 h19, codecDecode_invalidLength h8 h19]

end Append

/-- Settles O25: DECODE completes with the codec's result, which further bytes do not change. -/
theorem decodeReadsOnlyItsLength : Obligations.DecodeReadsOnlyItsLength := by
  intro s bytes more
  refine ⟨codecDecode s.cfg bytes bytes.length, exec_decode le_rfl, ?longer⟩
  case longer => rw [exec_decode (by simp), codecDecode_append]

section Change
variable {bytes : List Byte} {k : Nat} (v : Byte)

theorem byteAt_set_same (h : k < bytes.length) : byteAt (bytes.set k v) k = v := by
  simp [byteAt, h]

theorem byteAt_set_other {i : Nat} (h : k ≠ i) : byteAt (bytes.set k v) i = byteAt bytes i := by
  simp [byteAt, List.getElem?_set_ne h]

/-- A sum takes up the difference of one byte. -/
theorem sum8_set {n : Nat} (hk : k < n) (hn : n ≤ bytes.length) :
    sum8 (bytes.set k v) n = sum8 bytes n + (-byteAt bytes k + v) := by
  have hlt : k < (bytes.take n).length := by simp; omega
  have hbyte : byteAt bytes k = (bytes.take n)[k] := by simp [byteAt, List.getElem?_eq_getElem (show k < bytes.length by omega)]
  have hsum := List.sum_set' (bytes.take n) k v
  rw [dif_pos hlt, ← hbyte, ← List.take_set] at hsum
  exact hsum

/-- A sum above the change is as before. -/
theorem sum8_set_above {n : Nat} (hk : n ≤ k) : sum8 (bytes.set k v) n = sum8 bytes n := by
  rw [sum8, sum8, List.take_set_of_le hk]

/-- R192: the checksum no longer holds, whether the sum or its own byte changed. -/
theorem checksum_set {v : Byte} (hc : sum8 bytes (bytes.length - 1) = byteAt bytes (bytes.length - 1))
    (hk : k < bytes.length) (hv : v ≠ byteAt bytes k) :
    sum8 (bytes.set k v) (bytes.length - 1) ≠ byteAt (bytes.set k v) (bytes.length - 1) := by
  by_cases hlast : k = bytes.length - 1
  · rw [sum8_set_above v hlast.ge, ← hlast, byteAt_set_same v hk, hlast, hc, ← hlast]
    exact hv.symm
  · rw [sum8_set v (by omega) (Nat.sub_le _ _), byteAt_set_other v hlast, ← hc]
    intro h
    have hzero : -byteAt bytes k + v = 0 := by simpa using h
    exact hv (neg_add_eq_zero.mp hzero).symm

end Change

/-- Settles O26: the length passes and the checksum does not. -/
theorem singleByteChangeFailsTheChecksum : Obligations.SingleByteChangeFailsTheChecksum := by
  intro s bytes k v hn hc hk hv
  have hsum := checksum_set ((sum8_eq_iff _ _ _).mpr hc) hk hv
  rw [exec_decode (List.length_set).ge, codecDecode_invalidChecksum hn (mt (sum8_eq_iff _ _ _).mpr hsum)]

end Sys2Proof.Machine
end

section
/-! PROOFS. Step 6 of DECODE: the State command of a frame's fields (R186, R190, R191). -/

namespace Sys2Proof.Machine

section Tables
variable {α β : Type} [DecidableEq β] {f : α → β} {l : List α} {b : β}

/-- A code outside a table's image is not found. -/
theorem find?_code_eq_none (h : ∀ m, f m ≠ b) : l.find? (fun m => f m == b) = none := by
  simp [h]

/-- A code of a listed member is found, as some member of that code. -/
theorem exists_find?_code {m : α} (hm : m ∈ l) (h : f m = b) : ∃ x, l.find? (fun m => f m == b) = some x := by
  refine Option.isSome_iff_exists.mp (List.find?_isSome.mpr ⟨m, hm, ?_⟩)
  simp [h]

end Tables

/-- The State command of a frame's fields, its codes read as `m`, `w` and `x`. -/
def frameCommand (f : StateFrame) (m : Mode) (w : Swing) (x : Fan) : StateCommand where
  mode := m
  swing := w
  fan := x
  temperature := f.temperature
  power := f.power
  onTimer := f.onTimer
  offTimer := f.offTimer
  onTime := f.onTime.setWidth 16
  offTime := f.offTime.setWidth 16
  time := f.time
  noTime := f.noTime

section
variable {cfg : Config} {f : StateFrame}

theorem decodeState_unknown_mode (h : ∀ m, cfg.modeCode m ≠ f.modeCode) :
    decodeState cfg f = .err (.invalidField .mode) := by
  have hmode : cfg.modeOf? f.modeCode = none := find?_code_eq_none h
  rw [decodeState, hmode]

section KnownMode
variable (hm : ∃ m, cfg.modeCode m = f.modeCode)
include hm

theorem exists_modeOf? : ∃ m, cfg.modeOf? f.modeCode = some m := by
  obtain ⟨m, hm⟩ := hm
  exact exists_find?_code (by cases m <;> decide) hm

/-- D9: the swing is looked at once the mode is known. -/
theorem decodeState_unknown_swing (h : ∀ w, cfg.swingCode w ≠ f.swingCode) :
    decodeState cfg f = .err (.invalidField .swing) := by
  obtain ⟨m, hmode⟩ := exists_modeOf? hm
  have hswing : cfg.swingOf? f.swingCode = none := find?_code_eq_none h
  simp only [decodeState, hmode, hswing]

/-- D9: the fan is looked at once the mode and the swing are known. -/
theorem decodeState_unknown_fan (hw : ∃ w, cfg.swingCode w = f.swingCode) (h : ∀ x, cfg.fanCode x ≠ f.fanCode) :
    decodeState cfg f = .err (.invalidField .fan) := by
  obtain ⟨m, hmode⟩ := exists_modeOf? hm
  obtain ⟨w, hw⟩ := hw
  obtain ⟨w', hswing⟩ : ∃ w', cfg.swingOf? f.swingCode = some w' := exists_find?_code (by cases w <;> decide) hw
  have hfan : cfg.fanOf? f.fanCode = none := find?_code_eq_none h
  simp only [decodeState, hmode, hswing, hfan]

end KnownMode

theorem decodeState_known (hinj : cfg.codesInjective) {m : Mode} {w : Swing} {x : Fan} (hm : cfg.modeCode m = f.modeCode)
    (hw : cfg.swingCode w = f.swingCode) (hx : cfg.fanCode x = f.fanCode) :
    decodeState cfg f = .cmd (.state (frameCommand f m w x)) := by
  simp only [decodeState, ← hm, ← hw, ← hx, modeOf?_modeCode hinj, swingOf?_swingCode hinj, fanOf?_fanCode hinj,
    frameCommand]

end

/-- Settles O29: FRAME.STATE outputs `decodeState` of its fields, which each case's own lemma gives. -/
theorem stateRowOutputsItsCommand : Obligations.StateRowOutputsItsCommand := by
  intro s f
  exact ⟨decodeState s.cfg f, rfl, decodeState_unknown_mode, decodeState_unknown_swing, decodeState_unknown_fan,
    fun hinj _ _ _ => decodeState_known hinj⟩

/-! ## The fields as R84, R88 and R89 write them -/

theorem high_nibble (b : Byte) : (b >>> 4).setWidth 4 = b.extractLsb' 4 4 := by revert b; decide

theorem low_nibble (b : Byte) : (b &&& 0x0F).setWidth 4 = b.extractLsb' 0 4 := by revert b; decide

theorem temperature_bits (b : Byte) : ((b >>> 1) &&& 0x1F).setWidth 5 = b.extractLsb' 1 5 := by revert b; decide

/-- `on_time` (R88): byte 10 and the low nibble of byte 11. -/
theorem onTime_bits (lo hi : Byte) :
    (lo.setWidth 12 ||| ((hi.extractLsb' 0 4).setWidth 12 <<< 8)).setWidth 16 =
      lo.setWidth 16 ||| ((hi &&& 0x0F).setWidth 16 <<< 8) := by
  have hlo : (lo.setWidth 12).setWidth 16 = lo.setWidth 16 := by revert lo; decide
  have hhi : ((hi.extractLsb' 0 4).setWidth 12 <<< 8).setWidth 16 = (hi &&& 0x0F).setWidth 16 <<< 8 := by
    revert hi; decide
  rw [BitVec.setWidth_or, hlo, hhi]

/-- `off_time` (R88): the high nibble of byte 11 and byte 12. -/
theorem offTime_bits (lo hi : Byte) :
    ((lo.extractLsb' 4 4).setWidth 12 ||| (hi.setWidth 12 <<< 4)).setWidth 16 =
      (lo >>> 4).setWidth 16 ||| (hi.setWidth 16 <<< 4) := by
  have hlo : ((lo.extractLsb' 4 4).setWidth 12).setWidth 16 = (lo >>> 4).setWidth 16 := by revert lo; decide
  have hhi : (hi.setWidth 12 <<< 4).setWidth 16 = hi.setWidth 16 <<< 4 := by revert hi; decide
  rw [BitVec.setWidth_or, hlo, hhi]

/-- `le16` as R10 writes it. -/
theorem le16_eq_add (lo hi : Byte) : le16 lo hi = lo.setWidth 16 + 256 * hi.setWidth 16 := by
  have hlo := lo.isLt
  have hhi := hi.isLt
  apply BitVec.eq_of_toNat_eq
  rw [le16_toNat]
  simp
  omega

/-- Settles O23: `decodeState`'s cases on the fields of the bytes, each field in the spec's spelling. -/
theorem decodeExtractsTheStateFields : Obligations.DecodeExtractsTheStateFields := by
  intro s bytes hp
  rw [exec_decode hp.1, codecDecode_nineteen hp]
  simp only [high_nibble, low_nibble, temperature_bits, ← onTime_bits, ← offTime_bits, ← le16_eq_add]
  refine ⟨fun h => ?mode, fun m hm => ⟨fun h => ?swing, fun w hw => ⟨fun h => ?fan, fun hinj x hx => ?known⟩⟩⟩
  case mode => rw [decodeState_unknown_mode h]
  case swing => rw [decodeState_unknown_swing ⟨m, hm⟩ h]
  case fan => rw [decodeState_unknown_fan ⟨m, hm⟩ ⟨w, hw⟩ h]
  case known => rw [decodeState_known hinj hm hw hx]; rfl

/-! ## The ignored bits (R99, D15) -/

/-- The frame with every ignored bit cleared. -/
def clearIgnored (f : StateFrame) : StateFrame :=
  { f with
    byte4 := 0, byte5bit3 := false, byte6hi := 0, byte6bit0 := false, byte7 := 0, byte9 := 0, byte13 := 0, byte14 := 0
    byte15hi := 0 }

/-- Step 6 of DECODE looks at no ignored bit. -/
theorem decodeState_clearIgnored (cfg : Config) (f : StateFrame) : decodeState cfg (clearIgnored f) = decodeState cfg f :=
  rfl

section Masks
variable {b c : Byte}

theorem byte5_of_mask (h : b &&& 0xF7 = c &&& 0xF7) :
    b.extractLsb' 4 4 = c.extractLsb' 4 4 ∧ b.getLsbD 2 = c.getLsbD 2 ∧ b.getLsbD 1 = c.getLsbD 1 ∧
      b.getLsbD 0 = c.getLsbD 0 := by
  have hmask (v : Byte) : v.extractLsb' 4 4 = (v &&& 0xF7).extractLsb' 4 4 ∧ v.getLsbD 2 = (v &&& 0xF7).getLsbD 2 ∧
      v.getLsbD 1 = (v &&& 0xF7).getLsbD 1 ∧ v.getLsbD 0 = (v &&& 0xF7).getLsbD 0 := by
    revert v; decide
  obtain ⟨hb4, hb2, hb1, hb0⟩ := hmask b
  obtain ⟨hc4, hc2, hc1, hc0⟩ := hmask c
  rw [hb4, hb2, hb1, hb0, hc4, hc2, hc1, hc0, h]
  exact ⟨rfl, rfl, rfl, rfl⟩

theorem byte6_of_mask (h : b &&& 0x3E = c &&& 0x3E) : b.extractLsb' 1 5 = c.extractLsb' 1 5 := by
  have hmask (v : Byte) : v.extractLsb' 1 5 = (v &&& 0x3E).extractLsb' 1 5 := by revert v; decide
  rw [hmask b, hmask c, h]

theorem byte15_of_mask (h : b &&& 0x01 = c &&& 0x01) : b.getLsbD 0 = c.getLsbD 0 := by
  have hmask (v : Byte) : v.getLsbD 0 = (v &&& 0x01).getLsbD 0 := by revert v; decide
  rw [hmask b, hmask c, h]

theorem byte4_of_mask (h : b &&& 0x80 = c &&& 0x80) : b.getLsbD 7 = c.getLsbD 7 := by
  have hmask (v : Byte) : v.getLsbD 7 = (v &&& 0x80).getLsbD 7 := by revert v; decide
  rw [hmask b, hmask c, h]

end Masks

/-- Settles O24: an eight-byte frame is read in its kind bit and, where that is set, its code; of a nineteen-byte frame the
fields agree but for the ignored ones. -/
theorem decodeIgnoresTheUnusedBits : Obligations.DecodeIgnoresTheUnusedBits := by
  intro s x y
  refine ⟨fun hx hy h4 hcode => ?eight, fun hx hy h5 h6 h8 h10 h11 h12 h15 h16 h17 => ?nineteen⟩
  case eight =>
    rw [exec_decode hx.1, exec_decode hy.1, codecDecode_eight hx, codecDecode_eight hy, ← byte4_of_mask h4]
    cases hk : (byteAt x 4).getLsbD 7 with
    | false => rfl
    | true =>
      obtain ⟨hlo, hhi⟩ := hcode hk
      rw [hlo, hhi]
  case nineteen =>
    obtain ⟨hmode, hoff, hon, hpower⟩ := byte5_of_mask h5
    have hfields : clearIgnored (StateFrame.ofBytes x) = clearIgnored (StateFrame.ofBytes y) := by
      simp only [clearIgnored, StateFrame.ofBytes, hmode, hoff, hon, hpower, byte6_of_mask h6, h8, h10, h11, h12,
        byte15_of_mask h15, h16, h17]
    rw [exec_decode hx.1, exec_decode hy.1, codecDecode_nineteen hx, codecDecode_nineteen hy,
      ← decodeState_clearIgnored s.cfg (StateFrame.ofBytes x), hfields, decodeState_clearIgnored]

/-! ## The frame rows (log 11) -/

/-- A state's next output tells the result. -/
theorem next_emit_decoded_inj {s : State} {res res' : DecodeResult}
    (h : (.next (s.emit (.decoded res)) : Host.Outcome State Fault Refusal) = .next (s.emit (.decoded res'))) :
    res = res' := by
  simpa [State.emit] using h

theorem exec_frameShortInstr (ign : BitVec 7) (c : ShortCommand) (s : State) :
    exec (frameShortInstr ign c) s = .next (s.emit (.decoded (.cmd (.short c)))) := by
  cases c <;> rfl

theorem exec_frameShortUnknown {ign : BitVec 7} {code : Half} {s : State}
    (hwf : (Instr.frameShortUnknown ign code).wellFormed s.cfg = true) :
    exec (.frameShortUnknown ign code) s = .next (s.emit (.decoded (.err .unknownCommand))) := by
  have hcode : s.cfg.shortOf? code = none := Option.isNone_iff_eq_none.mp hwf
  rw [exec, execFrameShortUnknown, decodeShort, hcode]
  rfl

/-- Settles O28: the row is what the decoder reads from its own frame, so its result is DECODE's; and a row's own meaning
names that result. -/
theorem frameRowsAgreeWithDecode : Obligations.FrameRowsAgreeWithDecode := by
  intro s i bytes hinj hwf henc
  have hdec : decodeFrame s.cfg bytes = .ok i := by
    have hword := decodeOfEncodeIsIdentity s.cfg i hinj hwf
    rwa [henc] at hword
  have hexec := exec_of_decodeFrame hdec s rfl
  refine ⟨_, hexec, exec_decode le_rfl, ?headerProbe, ?short, ?unknown⟩
  case headerProbe => rintro ign b5 b6 rfl; exact next_emit_decoded_inj hexec.symm
  case short =>
    rintro ign c rfl
    rw [exec_frameShortInstr] at hexec
    exact next_emit_decoded_inj hexec.symm
  case unknown =>
    rintro ign code rfl
    rw [exec_frameShortUnknown hwf] at hexec
    exact next_emit_decoded_inj hexec.symm

end Sys2Proof.Machine
end

section
/-! PROOFS. ENCODE.STATE: the capacity check (R216) and the nineteen bytes (R212 to R215). -/

namespace Sys2Proof.Machine

/-- R216: below nineteen bytes the error is the only output. -/
theorem exec_encodeState_small {s : State} {c : StateCommand} {capacity : Nat} (h : capacity < 19) :
    exec (.encodeState c capacity) s = .next (s.emit (.encoded (.err .bufferTooSmall))) := by
  rw [exec, execEncodeState, codecEncodeState, LEN_STATE, if_pos h]

/-- R214: `no_time` or a time of 0 forces the sentinel. -/
theorem collapse_forced {c : StateCommand} (h : c.noTime = true ∨ c.time = 0) :
    (collapse c).onTime = 0x600 ∧ (collapse c).offTime = 0x600 ∧ (collapse c).time = 0 := by
  rw [collapse, if_pos h]
  exact ⟨rfl, rfl, rfl⟩

/-! The fields of a byte, in the spelling of R84 and R88. -/

theorem boolAt_zero (b : Bool) : boolAt b 0 = if b then 0x01 else 0x00 := by revert b; decide

theorem boolAt_one (b : Bool) : boolAt b 1 = if b then 0x02 else 0x00 := by revert b; decide

theorem boolAt_two (b : Bool) : boolAt b 2 = if b then 0x04 else 0x00 := by revert b; decide

theorem fieldAt_zero {w : Nat} (v : BitVec w) : fieldAt v 0 = v.setWidth 8 := BitVec.shiftLeft_zero _

theorem low_byte (v : Half) : v.extractLsb' 0 8 = v.setWidth 8 := (BitVec.setWidth_eq_extractLsb' (by decide)).symm

/-- Bits from `k` up are the low bits of the shifted value. -/
theorem extractLsb'_eq_shift (v : Half) (k w : Nat) : v.extractLsb' k w = (v >>> k).extractLsb' 0 w := by
  apply BitVec.eq_of_toNat_eq
  simp [BitVec.extractLsb'_toNat]

/-- Four bits in a byte are a mask by `0x00F`. -/
theorem nibble_eq_mask (v : Half) : (v.extractLsb' 0 4).setWidth 8 = (v &&& 0x00F).setWidth 8 := by
  have hmask : v.toNat % 256 &&& 15 = v.toNat % 256 % 16 := Nat.and_two_pow_sub_one_eq_mod (v.toNat % 256) 4
  apply BitVec.eq_of_toNat_eq
  simp [BitVec.extractLsb'_toNat, hmask]
  omega

/-- The first eighteen bytes of ENCODE.STATE's frame. -/
theorem encodeStateBytes_take (cfg : Config) (c : StateCommand) :
    (encodeStateBytes cfg c).take 18 =
      [ (0x02 : Byte), 0x20, 0xE0, 0x04, 0x00,
        ((cfg.modeCode c.mode).setWidth 8 <<< 4) ||| 0x08 ||| (if c.offTimer then 0x04 else 0x00) |||
          (if c.onTimer then 0x02 else 0x00) ||| (if c.power then 0x01 else 0x00),
        c.temperature.setWidth 8 <<< 1,
        0x80,
        ((cfg.fanCode c.fan).setWidth 8 <<< 4) ||| (cfg.swingCode c.swing).setWidth 8,
        0x00,
        (collapse c).onTime.setWidth 8,
        (((collapse c).offTime &&& 0x00F).setWidth 8 <<< 4) ||| (((collapse c).onTime >>> 8) &&& 0x00F).setWidth 8,
        ((collapse c).offTime >>> 4).setWidth 8,
        0x00, 0x00,
        0x80 ||| (if c.noTime then 0x01 else 0x00),
        (collapse c).time.setWidth 8,
        ((collapse c).time >>> 8).setWidth 8 ] := by
  have hoff : (collapse c).offTime.extractLsb' 4 8 = ((collapse c).offTime >>> 4).setWidth 8 := by
    rw [extractLsb'_eq_shift, low_byte]
  have hon : fieldAt ((collapse c).onTime.extractLsb' 8 4) 0 = (((collapse c).onTime >>> 8) &&& 0x00F).setWidth 8 := by
    rw [extractLsb'_eq_shift, fieldAt_zero, nibble_eq_mask]
  have hlow : fieldAt ((collapse c).offTime.extractLsb' 0 4) 4 = ((collapse c).offTime &&& 0x00F).setWidth 8 <<< 4 := by
    rw [fieldAt, nibble_eq_mask]
  have htime : hiByte (collapse c).time = ((collapse c).time >>> 8).setWidth 8 := by
    rw [hiByte, extractLsb'_eq_shift, low_byte]
  rw [← boolAt_zero, ← boolAt_zero, ← boolAt_one, ← boolAt_two, ← fieldAt_zero (cfg.swingCode c.swing), ← hoff, ← hon, ← hlow,
    ← htime, ← low_byte, ← low_byte]
  rfl

/-- Settles O31: the timer fields are the collapsed command's, the checksum is the sum of the bytes before it. -/
theorem encodeStateBuildsTheFrame : Obligations.EncodeStateBuildsTheFrame := by
  intro s c capacity
  refine ⟨exec_encodeState_small, fun hcap => ⟨(collapse c).onTime, (collapse c).offTime, (collapse c).time,
    encodeStateBytes s.cfg c, collapse_forced, fun hno ht => ?kept, encodeStateBytes_take s.cfg c,
    encodeStateBytes_length s.cfg c, ?checksum, exec_encodeState hcap⟩⟩
  case kept => rw [collapse_eq_self hno ht]; exact ⟨rfl, rfl, rfl⟩
  case checksum => rw [encodeStateBytes_eq, ← stateFrame_checksum, sum8_toNat]

end Sys2Proof.Machine
end

section
/-! PROOFS. PULSE_ENCODE's sequence place by place (R240 to R242). -/

namespace Sys2Proof.Machine

/-- The sequence, its five parts from the left. -/
theorem pulseSeq_eq (cfg : Config) (data : List Byte) :
    pulseSeq cfg data = [headerPair cfg, headerPair cfg] ++ (cfg.hdrRepeat.toList.flatMap (bitPairs cfg) ++
      ([headerPair cfg, headerPair cfg] ++ (data.flatMap (bitPairs cfg) ++ [endPair cfg]))) := by
  simp only [pulseSeq, List.append_assoc]

section
variable (cfg : Config) (data : List Byte)

theorem hdrRepeat_pairs_length : (cfg.hdrRepeat.toList.flatMap (bitPairs cfg)).length = 64 := by
  rw [bytePairs_length, Vector.length_toList]

/-- Places 2 to 65 are HDR_REPEAT's bits. -/
theorem pulseSeq_hdrRepeat {i : Nat} (h : i < 64) :
    (pulseSeq cfg data)[2 + i]? = (cfg.hdrRepeat.toList.flatMap (bitPairs cfg))[i]? := by
  rw [pulseSeq_eq, List.getElem?_append_right (Nat.le_add_right 2 i), List.length_cons, List.length_singleton,
    Nat.add_sub_cancel_left, List.getElem?_append_left (by rw [hdrRepeat_pairs_length]; exact h)]

/-- From place 66 on stand the second two header pairs, the data and the end pair. -/
theorem pulseSeq_from (i : Nat) :
    (pulseSeq cfg data)[66 + i]? =
      ([headerPair cfg, headerPair cfg] ++ (data.flatMap (bitPairs cfg) ++ [endPair cfg]))[i]? := by
  rw [pulseSeq_eq, ← List.append_assoc, List.getElem?_append_right (by simp [hdrRepeat_pairs_length, -List.length_flatMap]),
    List.length_append, hdrRepeat_pairs_length]
  congr 1
  simp

/-- From place 68 on stand the data and the end pair. -/
theorem pulseSeq_data (i : Nat) : (pulseSeq cfg data)[68 + i]? = (data.flatMap (bitPairs cfg) ++ [endPair cfg])[i]? := by
  rw [show 68 + i = 66 + (2 + i) by omega, pulseSeq_from, List.getElem?_append_right (Nat.le_add_right 2 i)]
  congr 1
  simp

end

/-- Settles O34: each place lies in one of the sequence's five parts. -/
theorem pulseEncodeIndexMap : Obligations.PulseEncodeIndexMap := by
  intro s data
  refine ⟨pulseSeq s.cfg data, exec_pulseEncode data s, pulseSeq_length s.cfg data, fun k hk => ?headers,
    fun j k hj hk => ?hdrRepeat, fun j k hj hk => ?data, ?endPair⟩
  case headers =>
    rcases hk with rfl | rfl | rfl | rfl
    · rfl
    · rfl
    · exact pulseSeq_from s.cfg data 0
    · exact pulseSeq_from s.cfg data 1
  case hdrRepeat =>
    rw [Nat.add_assoc, pulseSeq_hdrRepeat s.cfg data (by omega),
      bytePairs_getElem s.cfg _ j k (by rwa [Vector.length_toList]) hk]
    rfl
  case data =>
    rw [Nat.add_assoc, pulseSeq_data, List.getElem?_append_left (by rw [bytePairs_length]; omega),
      bytePairs_getElem s.cfg data j k hj hk]
    rfl
  case endPair =>
    rw [pulseSeq_data, List.getElem?_append_right (bytePairs_length s.cfg data).le, bytePairs_length, Nat.sub_self]
    rfl

end Sys2Proof.Machine
end

section
/-! PROOFS. Where a receive event comes from (R263), and the idle gap of a quiescent stream (R358). -/

namespace Sys2Proof.Machine

section Deliver
variable {cfg : Config} {ev : AsmEvent}

/-- An event that is no frame error and not NoEvent is the codec's, so a frame completed. -/
theorem frameComplete_of_deliver (hnone : deliver cfg ev ≠ .noEvent) (hfail : ∀ e, deliver cfg ev ≠ .err (.frame e)) :
    ∃ n data, ev = .frameComplete n data := by
  cases ev with
  | none => exact absurd rfl hnone
  | fail e => exact absurd rfl (hfail e)
  | frameComplete n data => exact ⟨n, data, rfl⟩

/-- A frame error is the assembler's: the codec reports none. -/
theorem fail_of_deliver {e : FrameError} (h : deliver cfg ev = .err (.frame e)) : ev = .fail e := by
  cases ev with
  | none => cases h
  | fail e' => cases h; rfl
  | frameComplete n data =>
    cases hres : codecDecode cfg data n <;> simp [deliver, hres, DecodeResult.toRx] at h

end Deliver

section Sources
variable {cfg : Config} {a : FrameAssemblyState} {sym : Symbol}

/-- Only an End completes a frame (R153). -/
theorem symbol_of_frameComplete {n : Nat} {data : List Byte} (h : (asmStep cfg a sym).2 = .frameComplete n data) :
    sym = .endFrame := by
  induction sym using symbol_bit_cases with
  | header => cases h
  | invalid => cases h
  | endFrame => rfl
  | bit b => exact absurd h (asmStep_bit_ne_frameComplete cfg a b n data)

/-- The symbols that report a frame error (R158). -/
def errorSources : FrameError → List Symbol
  | .invalidSymbol => [.invalid]
  | .overflow => [.bit0, .bit1]
  | .incompleteByte => [.endFrame]

theorem symbol_of_fail {e : FrameError} (h : (asmStep cfg a sym).2 = .fail e) : sym ∈ errorSources e := by
  induction sym using symbol_bit_cases with
  | header => cases h
  | invalid => cases h; decide
  | endFrame =>
    rcases asmEnd_event a with ⟨n, data, hev⟩ | hev <;> rw [asmStep, hev] at h <;> cases h
    decide
  | bit b =>
    rcases asmStep_bit_event cfg b a with hev | hev <;> rw [hev] at h <;> cases h
    cases b <;> decide

/-- R262 and R153: an event of the codec's comes from an End. -/
theorem symbol_of_decoded {rx : RxEvent} (h : deliver cfg (asmStep cfg a sym).2 = rx) (hnone : rx ≠ .noEvent)
    (hfail : ∀ e, rx ≠ .err (.frame e)) : sym = .endFrame := by
  subst h
  obtain ⟨n, data, hev⟩ := frameComplete_of_deliver hnone hfail
  exact symbol_of_frameComplete hev

end Sources

/-- Settles O40: an event of the codec's comes from a completed frame, a frame error from its symbols. -/
theorem eventsComeFromTheirSymbols : Obligations.EventsComeFromTheirSymbols := by
  intro s t r mark space h
  obtain ⟨a, ha, rfl⟩ := onStream_next h
  have hfail (e : FrameError) (hrx : deliver s.cfg (asmStep s.cfg a (classify mark space)).2 = .err (.frame e)) :
      classify mark space ∈ errorSources e := symbol_of_fail (fail_of_deliver hrx)
  refine ⟨classify mark space, deliver s.cfg (asmStep s.cfg a (classify mark space)).2, exec_classify mark space s, rfl,
    fun c hrx => ?cmd, fun hrx => ?headerProbe, fun e hrx => ?decode, fun hrx => ?invalid, fun hrx => ?overflow,
    fun hrx => ?incomplete, fun hsym => ?header⟩
  case cmd => exact symbol_of_decoded hrx (by simp) (by simp)
  case headerProbe => exact symbol_of_decoded hrx (by simp) (by simp)
  case decode => exact symbol_of_decoded hrx (by simp) (by simp)
  case invalid => simpa [errorSources] using hfail _ hrx
  case overflow => simpa [errorSources] using hfail _ hrx
  case incomplete => simpa [errorSources] using hfail _ hrx
  case header => rw [hsym]; rfl

/-- Idling a quiescent stream changes nothing. -/
theorem toIdle_eq_self {a : FrameAssemblyState} (h : a.quiescent = true) : a.toIdle = a := by
  obtain ⟨hf, hk, hn⟩ := (quiescent_iff a).mp h
  rw [FrameAssemblyState.toIdle, ← hf, ← hk, ← hn]

/-- Settles O39: an End of a quiescent stream completes a frame of no bytes and leaves the registers. -/
theorem idleGapReportsInvalidLength : Obligations.IdleGapReportsInvalidLength := by
  intro s r a ha hq
  obtain ⟨-, hk, hn⟩ := (quiescent_iff a).mp hq
  have hend : asmStep s.cfg a .endFrame = (a, .frameComplete 0 []) := by
    rw [asmStep, asmEnd_aligned hk, toIdle_eq_self hq, hn]
    rfl
  rw [exec_rxGap ha, hend, setStream_self ha, deliver, codecDecode_invalidLength (by decide) (by decide)]
  rfl

end Sys2Proof.Machine
end

section
/-! PROOFS. The operations that read no stream (R20, R59). -/

namespace Sys2Proof.Machine

/-- CLASSIFY, DECODE, ENCODE.* and PULSE_ENCODE under a configuration: refused in every state, or one output for all. -/
theorem exec_pure_operation (cfg : Config) {i : Instr}
    (hi : (∃ mark space, i = .classify mark space) ∨ (∃ bytes n, i = .decode bytes n) ∨
      (∃ c n, i = encodeInstr c n) ∨ (∃ data, i = .pulseEncode data)) :
    (∀ u, exec i u = .refused .decodeOperandTooShort) ∨ ∃ o, ∀ u : State, u.cfg = cfg → exec i u = .next (u.emit o) := by
  rcases hi with ⟨mark, space, rfl⟩ | ⟨bytes, n, rfl⟩ | ⟨c, n, rfl⟩ | ⟨data, rfl⟩
  · exact .inr ⟨_, fun u _ => exec_classify mark space u⟩
  · rcases Nat.lt_or_ge bytes.length n with hlt | hge
    · exact .inl fun u => shortDecodeOperandIsRefused u bytes n hlt
    · exact .inr ⟨.decoded (codecDecode cfg bytes n), fun u hu => by rw [exec_decode hge, hu]⟩
  · exact .inr ⟨.encoded (codecEncode cfg c n), fun u hu => by rw [exec_encodeInstr, hu]⟩
  · exact .inr ⟨.pulses (pulseSeq cfg data), fun u hu => by rw [exec_pulseEncode, hu]⟩

/-- Settles O19: the one output is the same with other streams in place. -/
theorem pureOperationsIgnoreTheStreams : Obligations.PureOperationsIgnoreTheStreams := by
  intro s t i xs hi h
  rcases exec_pure_operation s.cfg hi with hrefused | ⟨o, hexec⟩
  · rw [hrefused] at h
    cases h
  · rw [hexec s rfl] at h
    cases h
    exact ⟨⟨o, rfl⟩, hexec { s with streams := xs } rfl⟩

end Sys2Proof.Machine
end

section
/-! PROOFS. The Device State Engine (46_host_contract.md): a point edit of the temperature (R285, R287) and a decoded State
command (R286, R292). -/

namespace Sys2Proof.Machine

/-- R287: the clamp, on numbers. -/
theorem clampTemperature_toNat (v : Int) : ((clampTemperature v).toNat : Int) = max 0 (min v 31) := by
  have hlt : min v.toNat 31 < 2 ^ 5 := by omega
  rw [clampTemperature, BitVec.toNat_ofNat, Nat.mod_eq_of_lt hlt]
  omega

/-- A point edit of a device that holds a State command (R285). -/
theorem pointEdit_state (cfg : Config) {d : DeviceState} {c : StateCommand} (h : d.current = .state c)
    (edit : StateCommand → StateCommand) :
    pointEdit cfg d edit = some (commit cfg (.state { edit c with noTime := true })) := by
  rw [pointEdit, h]

/-- Settles O58: a point edit of the clamped value, whose cycle is `commit`'s. -/
theorem setTemperatureClampsAndTransmits : Obligations.SetTemperatureClampsAndTransmits := by
  intro s d c v h
  exact ⟨_, _, clampTemperature v, pointEdit_state s.cfg h _, rfl, clampTemperature_toNat v, exec_txCommand _ s, rfl⟩

/-- Settles O59: the receive loop's arm for a State command is `commit` of it. -/
theorem decodedStateReplacesTheDevice : Obligations.DecodedStateReplacesTheDevice :=
  fun s _ c => ⟨(commit s.cfg (.state c)).2, rfl, exec_txCommand _ s, rfl⟩

end Sys2Proof.Machine
end
